-- ==== Sys2Proof/Word.lean ====
section
/-!
DEFINITION. The words of the machine (00_scope.md R6): a byte, a 16-bit word, a 4-bit nibble and a 12-bit address field.
All are unsigned; the hardware has no signed operation.
-/
namespace Sys2Proof

/-- An 8-bit value: a general register, a timer, a memory byte, an immediate `kk`. -/
abbrev Byte := BitVec 8

/-- A 16-bit value: an instruction word, `PC`, `I`, a stack entry. -/
abbrev Word := BitVec 16

/-- A 4-bit slice of an instruction word: a register index `x` or `y`, a sprite height `n`, a logical key. -/
abbrev Nibble := BitVec 4

/-- The 12-bit address field `nnn`. -/
abbrev Addr := BitVec 12

end Sys2Proof
end

