-- ==== Sys2Proof/Config.lean ====
section
/-!
DEFINITION. What is fixed for the block (00_scope.md R5) and the inputs of the environment, which the spec leaves free
(00_scope.md R7 and R8, 41_alu.md R113, 44_keypad_and_timers.md R150 and R151, 60_exceptions.md R186).
An input has NO BODY: nothing can be proved of its value, so a theorem holds for every environment.
-/
namespace Sys2Proof

/-- The highest valid address, 0xFFF (00_scope.md R5). -/
def Config.addrMax : Nat := 0xFFF

/-- The load address and reset `PC`, 0x200 (00_scope.md R5). -/
def Config.progBase : Nat := 0x200

/-- The longest program image, 3584 bytes (00_scope.md R5). -/
def Config.progMax : Nat := 3584

/-- FREE VALUE (log entry 1): the byte `rand_byte()` answers when it is the `k`-th input of the run (41_alu.md R113). -/
opaque Config.randByte (k : Nat) : Byte

/-- FREE VALUE (log entry 1): whether logical key `key` is held when it is sampled as the `k`-th input of the run
(44_keypad_and_timers.md R150, R151). -/
opaque Config.keyHeld (k : Nat) (key : Nibble) : Bool

/-- FREE VALUE (log entry 2): the host operation that reaches the block as the `k`-th input of the run while it awaits a
key: `some key` is `key_press(key)`, `none` is `cycle()` (60_exceptions.md R186, R187). -/
opaque Config.keyPressed (k : Nat) : Option Nibble

end Sys2Proof
end

