-- ==== Sys2Proof/Syntax.lean ====
section
/-!
DEFINITION. The instructions: one constructor per row of spec/opcode_table.json, in the table's order
(30_encoding.md R64). The operand types carry the field widths of R62.
-/
namespace Sys2Proof

/-- The 34 instruction patterns. `x` and `y` are register indices, `kk` an immediate byte, `nnn` an address, `n` a
sprite height. The `y` of `shr` and `shl` is decoded and then ignored (30_encoding.md R68). -/
inductive Instr where
  /-- `00E0`, R140. -/
  | cls
  /-- `00EE`, R80. -/
  | ret
  /-- `1nnn`, R81. -/
  | jp (nnn : Addr)
  /-- `2nnn`, R82. -/
  | call (nnn : Addr)
  /-- `3xkk`, R83. -/
  | seImm (x : Nibble) (kk : Byte)
  /-- `4xkk`, R84. -/
  | sneImm (x : Nibble) (kk : Byte)
  /-- `5xy0`, R85. -/
  | seReg (x y : Nibble)
  /-- `9xy0`, R86. -/
  | sneReg (x y : Nibble)
  /-- `6xkk`, R100. -/
  | ldImm (x : Nibble) (kk : Byte)
  /-- `7xkk`, R101. -/
  | addImm (x : Nibble) (kk : Byte)
  /-- `8xy0`, R102. -/
  | ldReg (x y : Nibble)
  /-- `8xy1`, R103. -/
  | orReg (x y : Nibble)
  /-- `8xy2`, R104. -/
  | andReg (x y : Nibble)
  /-- `8xy3`, R105. -/
  | xorReg (x y : Nibble)
  /-- `8xy4`, R106. -/
  | addReg (x y : Nibble)
  /-- `8xy5`, R107. -/
  | sub (x y : Nibble)
  /-- `8xy6`, R108. -/
  | shr (x y : Nibble)
  /-- `8xy7`, R109. -/
  | subn (x y : Nibble)
  /-- `8xyE`, R110. -/
  | shl (x y : Nibble)
  /-- `Annn`, R120. -/
  | ldI (nnn : Addr)
  /-- `Bnnn`, R87. -/
  | jpV0 (nnn : Addr)
  /-- `Cxkk`, R113. -/
  | rnd (x : Nibble) (kk : Byte)
  /-- `Dxyn`, R141. -/
  | drw (x y n : Nibble)
  /-- `Ex9E`, R150. -/
  | skp (x : Nibble)
  /-- `ExA1`, R151. -/
  | sknp (x : Nibble)
  /-- `Fx07`, R152. -/
  | ldVxDt (x : Nibble)
  /-- `Fx15`, R154. -/
  | ldDtVx (x : Nibble)
  /-- `Fx18`, R155. -/
  | ldStVx (x : Nibble)
  /-- `Fx0A`, R153. -/
  | ldVxK (x : Nibble)
  /-- `Fx1E`, R121. -/
  | addI (x : Nibble)
  /-- `Fx29`, R122. -/
  | ldF (x : Nibble)
  /-- `Fx33`, R123. -/
  | ldB (x : Nibble)
  /-- `Fx55`, R124. -/
  | stRegs (x : Nibble)
  /-- `Fx65`, R125. -/
  | ldRegs (x : Nibble)
  deriving DecidableEq, Repr

end Sys2Proof
end

