-- ==== Sys2Proof/WellFormed.lean ====
section
/-!
DEFINITION. The checks on raw terms. An instruction has none of its own: its operand types hold exactly the values the
fields of 30_encoding.md R62 can hold, and every one of them is legal ("all 16 values are legal, including 15 (VF)"), so
an ill-formed instruction cannot be written down. What can be ill formed is a row of the opcode map (a match bit outside
its mask, or two rows that some word matches both of, R63) and a program image (too long to load, 70_reset_and_hazards.md
R201).
-/
namespace Sys2Proof

/-- One row of the opcode map of 30_encoding.md R64: a word `op` matches it when `op & mask = value`. -/
structure OpRow where
  mask : Word
  value : Word
  deriving DecidableEq, Repr

/-- `op & mask = match` (30_encoding.md R63). -/
def OpRow.matches (r : OpRow) (op : Word) : Bool := op &&& r.mask == r.value

/-- A row fixes only bits of its mask. -/
def OpRow.wellFormed (r : OpRow) : Bool := r.value &&& r.mask == r.value

/-- Two rows that no word matches both of: some bit both fix differs. -/
def OpRow.disjoint (r t : OpRow) : Bool := (r.value ^^^ t.value) &&& (r.mask &&& t.mask) != 0

/-- A map of the opcodes: every row well formed, and any two disjoint, so that "decode order is irrelevant" (R63). -/
def opMapWellFormed : List OpRow → Bool
  | [] => true
  | r :: rs => r.wellFormed && rs.all r.disjoint && opMapWellFormed rs

/-- Every instruction is well formed: its operand types are the fields of 30_encoding.md R62. -/
def Instr.wellFormed : Instr → Bool
  | .cls | .ret => true
  | .jp _ | .call _ | .ldI _ | .jpV0 _ => true
  | .seImm _ _ | .sneImm _ _ | .ldImm _ _ | .addImm _ _ | .rnd _ _ => true
  | .seReg _ _ | .sneReg _ _ | .ldReg _ _ | .orReg _ _ | .andReg _ _ | .xorReg _ _ => true
  | .addReg _ _ | .sub _ _ | .shr _ _ | .subn _ _ | .shl _ _ => true
  | .drw _ _ _ => true
  | .skp _ | .sknp _ | .ldVxDt _ | .ldDtVx _ | .ldStVx _ | .ldVxK _ => true
  | .addI _ | .ldF _ | .ldB _ | .stRegs _ | .ldRegs _ => true

/-- The precondition of `load` on a program image: at most 3584 bytes (70_reset_and_hazards.md R201). -/
def imageWellFormed (p : List Byte) : Bool := p.length ≤ Config.progMax

end Sys2Proof
end

