-- ==== Sys2Proof/Decode.lean ====
section
/-!
DEFINITION. The fields of an instruction word (30_encoding.md R62), the decoder (R63 to R69), the opcode map (R64) and
the encoder, written from the formats of R61.
-/
namespace Sys2Proof

/-! ## Fields (R6, R62) -/

/-- The major opcode, `op[15:12]`. -/
def fieldMajor (op : Word) : Nibble := op.extractLsb' 12 4

/-- `x = op[11:8]`. -/
def fieldX (op : Word) : Nibble := op.extractLsb' 8 4

/-- `y = op[7:4]`. -/
def fieldY (op : Word) : Nibble := op.extractLsb' 4 4

/-- `n = op[3:0]`, also the minor opcode of format R. -/
def fieldN (op : Word) : Nibble := op.extractLsb' 0 4

/-- `kk = op[7:0]`, also the function of format X. -/
def fieldKk (op : Word) : Byte := op.extractLsb' 0 8

/-- `nnn = op[11:0]`. -/
def fieldNnn (op : Word) : Addr := op.extractLsb' 0 12

/-! ## Decoding (R63): the top nibble, then the sub-nibbles, every digit of the pattern compared -/

/-- Major opcode 0x0: two words only (R65). -/
def decodeZero (op : Word) : Option Instr :=
  match op with
  | 0x00E0#16 => some .cls
  | 0x00EE#16 => some .ret
  | _ => none

/-- Major opcode 0x8, by minor opcode (R66). -/
def decodeArith (x y minor : Nibble) : Option Instr :=
  match minor with
  | 0x0#4 => some (.ldReg x y)
  | 0x1#4 => some (.orReg x y)
  | 0x2#4 => some (.andReg x y)
  | 0x3#4 => some (.xorReg x y)
  | 0x4#4 => some (.addReg x y)
  | 0x5#4 => some (.sub x y)
  | 0x6#4 => some (.shr x y)
  | 0x7#4 => some (.subn x y)
  | 0xE#4 => some (.shl x y)
  | _ => none

/-- Major opcodes 0x5 and 0x9 have the single minor opcode 0 (R66). -/
def decodeMinorZero (i : Instr) (minor : Nibble) : Option Instr :=
  match minor with
  | 0x0#4 => some i
  | _ => none

/-- Major opcode 0xE, by function (R67). -/
def decodeKey (x : Nibble) (function : Byte) : Option Instr :=
  match function with
  | 0x9E#8 => some (.skp x)
  | 0xA1#8 => some (.sknp x)
  | _ => none

/-- Major opcode 0xF, by function (R67). -/
def decodeMisc (x : Nibble) (function : Byte) : Option Instr :=
  match function with
  | 0x07#8 => some (.ldVxDt x)
  | 0x0A#8 => some (.ldVxK x)
  | 0x15#8 => some (.ldDtVx x)
  | 0x18#8 => some (.ldStVx x)
  | 0x1E#8 => some (.addI x)
  | 0x29#8 => some (.ldF x)
  | 0x33#8 => some (.ldB x)
  | 0x55#8 => some (.stRegs x)
  | 0x65#8 => some (.ldRegs x)
  | _ => none

/-- The instruction of a word; `none` for an unknown opcode (R63, R69). -/
def decode (op : Word) : Option Instr :=
  match fieldMajor op with
  | 0x0#4 => decodeZero op
  | 0x1#4 => some (.jp (fieldNnn op))
  | 0x2#4 => some (.call (fieldNnn op))
  | 0x3#4 => some (.seImm (fieldX op) (fieldKk op))
  | 0x4#4 => some (.sneImm (fieldX op) (fieldKk op))
  | 0x5#4 => decodeMinorZero (.seReg (fieldX op) (fieldY op)) (fieldN op)
  | 0x6#4 => some (.ldImm (fieldX op) (fieldKk op))
  | 0x7#4 => some (.addImm (fieldX op) (fieldKk op))
  | 0x8#4 => decodeArith (fieldX op) (fieldY op) (fieldN op)
  | 0x9#4 => decodeMinorZero (.sneReg (fieldX op) (fieldY op)) (fieldN op)
  | 0xA#4 => some (.ldI (fieldNnn op))
  | 0xB#4 => some (.jpV0 (fieldNnn op))
  | 0xC#4 => some (.rnd (fieldX op) (fieldKk op))
  | 0xD#4 => some (.drw (fieldX op) (fieldY op) (fieldN op))
  | 0xE#4 => decodeKey (fieldX op) (fieldKk op)
  | 0xF#4 => decodeMisc (fieldX op) (fieldKk op)
  | _ => none

/-- Why bytes do not decode. -/
inductive DecodeError where
  /-- The word matches none of the 34 patterns (R69). The machine goes on: see `Machine.cycle`. -/
  | unknownOpcode (op : Word)
  /-- Fewer than two bytes are left. -/
  | truncated
  deriving DecidableEq, Repr

/-- The word of two bytes, the byte at the lower address on top (20_memory.md R41). -/
def wordOfBytes (hi lo : Byte) : Word := hi ++ lo

/-- The two bytes of a word as the hardware stores them, lowest address first. -/
def bytesOfWord (op : Word) : List Byte := [op.extractLsb' 8 8, op.extractLsb' 0 8]

/-- The instruction at the head of a list of bytes, and the bytes after it. -/
def decodeBytes : List Byte → Except DecodeError (Instr × List Byte)
  | hi :: lo :: rest =>
    match decode (wordOfBytes hi lo) with
    | some i => .ok (i, rest)
    | none => .error (.unknownOpcode (wordOfBytes hi lo))
  | _ => .error .truncated

/-- The word whose bits, numbered as the opcode table numbers them, are the low `nbits` of `w`; the bits above are 0. -/
def tableWord (nbits w : Nat) : Word := BitVec.ofNat 16 (w % 2 ^ nbits)

/-- The instruction the decoder reads from an instruction whose bits are `w`, in the table's numbering. -/
def decodeTableWord (nbits w : Nat) : Option Instr :=
  match decodeBytes (bytesOfWord (tableWord nbits w)) with
  | .ok (i, _) => some i
  | .error _ => none

/-! ## Encoding: the formats of R61 -/

/-- Formats R and D (and Z): four nibbles, the most significant first. -/
def packNibbles (a b c d : Nibble) : Word := a ++ b ++ c ++ d

/-- Formats I and X: major opcode, `x`, low byte. -/
def packByte (major x : Nibble) (kk : Byte) : Word := major ++ x ++ kk

/-- Format A: major opcode, address. -/
def packAddr (major : Nibble) (nnn : Addr) : Word := major ++ nnn

/-- The word of an instruction (R61, R64). -/
def encode : Instr → Word
  | .cls => packNibbles 0x0 0x0 0xE 0x0
  | .ret => packNibbles 0x0 0x0 0xE 0xE
  | .jp nnn => packAddr 0x1 nnn
  | .call nnn => packAddr 0x2 nnn
  | .seImm x kk => packByte 0x3 x kk
  | .sneImm x kk => packByte 0x4 x kk
  | .seReg x y => packNibbles 0x5 x y 0x0
  | .sneReg x y => packNibbles 0x9 x y 0x0
  | .ldImm x kk => packByte 0x6 x kk
  | .addImm x kk => packByte 0x7 x kk
  | .ldReg x y => packNibbles 0x8 x y 0x0
  | .orReg x y => packNibbles 0x8 x y 0x1
  | .andReg x y => packNibbles 0x8 x y 0x2
  | .xorReg x y => packNibbles 0x8 x y 0x3
  | .addReg x y => packNibbles 0x8 x y 0x4
  | .sub x y => packNibbles 0x8 x y 0x5
  | .shr x y => packNibbles 0x8 x y 0x6
  | .subn x y => packNibbles 0x8 x y 0x7
  | .shl x y => packNibbles 0x8 x y 0xE
  | .ldI nnn => packAddr 0xA nnn
  | .jpV0 nnn => packAddr 0xB nnn
  | .rnd x kk => packByte 0xC x kk
  | .drw x y n => packNibbles 0xD x y n
  | .skp x => packByte 0xE x 0x9E
  | .sknp x => packByte 0xE x 0xA1
  | .ldVxDt x => packByte 0xF x 0x07
  | .ldDtVx x => packByte 0xF x 0x15
  | .ldStVx x => packByte 0xF x 0x18
  | .ldVxK x => packByte 0xF x 0x0A
  | .addI x => packByte 0xF x 0x1E
  | .ldF x => packByte 0xF x 0x29
  | .ldB x => packByte 0xF x 0x33
  | .stRegs x => packByte 0xF x 0x55
  | .ldRegs x => packByte 0xF x 0x65

/-! ## The opcode map of R64, mask and match as the spec prints them -/

/-- The row of an instruction in the opcode map (R64). -/
def opRow : Instr → OpRow
  | .cls => ⟨0xFFFF, 0x00E0⟩
  | .ret => ⟨0xFFFF, 0x00EE⟩
  | .jp _ => ⟨0xF000, 0x1000⟩
  | .call _ => ⟨0xF000, 0x2000⟩
  | .seImm _ _ => ⟨0xF000, 0x3000⟩
  | .sneImm _ _ => ⟨0xF000, 0x4000⟩
  | .seReg _ _ => ⟨0xF00F, 0x5000⟩
  | .sneReg _ _ => ⟨0xF00F, 0x9000⟩
  | .ldImm _ _ => ⟨0xF000, 0x6000⟩
  | .addImm _ _ => ⟨0xF000, 0x7000⟩
  | .ldReg _ _ => ⟨0xF00F, 0x8000⟩
  | .orReg _ _ => ⟨0xF00F, 0x8001⟩
  | .andReg _ _ => ⟨0xF00F, 0x8002⟩
  | .xorReg _ _ => ⟨0xF00F, 0x8003⟩
  | .addReg _ _ => ⟨0xF00F, 0x8004⟩
  | .sub _ _ => ⟨0xF00F, 0x8005⟩
  | .shr _ _ => ⟨0xF00F, 0x8006⟩
  | .subn _ _ => ⟨0xF00F, 0x8007⟩
  | .shl _ _ => ⟨0xF00F, 0x800E⟩
  | .ldI _ => ⟨0xF000, 0xA000⟩
  | .jpV0 _ => ⟨0xF000, 0xB000⟩
  | .rnd _ _ => ⟨0xF000, 0xC000⟩
  | .drw _ _ _ => ⟨0xF000, 0xD000⟩
  | .skp _ => ⟨0xF0FF, 0xE09E⟩
  | .sknp _ => ⟨0xF0FF, 0xE0A1⟩
  | .ldVxDt _ => ⟨0xF0FF, 0xF007⟩
  | .ldDtVx _ => ⟨0xF0FF, 0xF015⟩
  | .ldStVx _ => ⟨0xF0FF, 0xF018⟩
  | .ldVxK _ => ⟨0xF0FF, 0xF00A⟩
  | .addI _ => ⟨0xF0FF, 0xF01E⟩
  | .ldF _ => ⟨0xF0FF, 0xF029⟩
  | .ldB _ => ⟨0xF0FF, 0xF033⟩
  | .stRegs _ => ⟨0xF0FF, 0xF055⟩
  | .ldRegs _ => ⟨0xF0FF, 0xF065⟩

/-- The 34 rows in the table's order (R64). -/
def opcodeMap : List OpRow :=
  [opRow .cls, opRow .ret, opRow (.jp 0), opRow (.call 0), opRow (.seImm 0 0), opRow (.sneImm 0 0), opRow (.seReg 0 0),
    opRow (.sneReg 0 0), opRow (.ldImm 0 0), opRow (.addImm 0 0)] ++
  [opRow (.ldReg 0 0), opRow (.orReg 0 0), opRow (.andReg 0 0), opRow (.xorReg 0 0), opRow (.addReg 0 0), opRow (.sub 0 0),
    opRow (.shr 0 0), opRow (.subn 0 0), opRow (.shl 0 0)] ++
  [opRow (.ldI 0), opRow (.jpV0 0), opRow (.rnd 0 0), opRow (.drw 0 0 0), opRow (.skp 0), opRow (.sknp 0)] ++
  [opRow (.ldVxDt 0), opRow (.ldDtVx 0), opRow (.ldStVx 0), opRow (.ldVxK 0), opRow (.addI 0), opRow (.ldF 0), opRow (.ldB 0),
    opRow (.stRegs 0), opRow (.ldRegs 0)]

end Sys2Proof
end

