-- ==== Sys2Proof/Machine/State.lean ====
section
/-!
DEFINITION. The state of the block (10_state.md R10 to R25), its faults (60_exceptions.md R175) and the state after reset
(10_state.md R28).
-/
namespace Sys2Proof.Machine

/-- Memory as the bytes that differ from what an address holds after reset (`initialByte`, Machine/Memory.lean), in the
canonical form `Memory.wf`: addresses strictly rising, none above 0xFFF, none listed at its reset value. -/
abbrev Memory := List Host.Cell

/-- The framebuffer, one 64-bit row per line: bit `col` of row `row` is the cell `FB[row][col]` (10_state.md R24). -/
abbrev Framebuffer := Vector (BitVec 64) 32

/-- `RS` (10_state.md R25). -/
inductive RunStatus where
  /-- The block runs. -/
  | run
  /-- `Fx0A` has executed and no key has been pressed since: the awaiting-input state. -/
  | awaitKey
  deriving DecidableEq, Repr

/-- The seven faults of 60_exceptions.md R175, each with its event record: `pc` is PC at the fault, `op` the fetched
word, and the rest is `info`. A fault changes no state (R176); the state it leaves is the one before the cycle. -/
inductive Fault where
  /-- Code 1, raised by `2nnn` with `SP = 16`. Safe: the spec gives the fault. -/
  | stackOverflow (pc op : Word)
  /-- Code 2, raised by `00EE` with `SP = 0`. Safe: the spec gives the fault. -/
  | stackUnderflow (pc op : Word)
  /-- Code 3, raised by the fetch stage with `PC > 0xFFE`. Safe: the spec gives the fault. -/
  | fetchAddress (pc : Word)
  /-- Code 4, raised by `Dxyn` with `n ≥ 1`, `Fx33`, `Fx55` and `Fx65` whose highest address `addr` is above 0xFFF.
  Safe: the spec gives the fault. -/
  | dataAddress (pc op : Word) (addr : Nat)
  /-- Code 5, raised by `Dxyn`: `(col, row)` is the first set sprite pixel outside the grid, rows outer, columns inner.
  Safe: the spec gives the fault. -/
  | displayBounds (pc op : Word) (col row : Nat)
  /-- Code 6, raised by `1nnn`, `2nnn` and `Bnnn` with an odd target. Safe: the spec gives the fault. -/
  | pcAlignment (pc op : Word) (target : Word)
  /-- Code 7, raised by `Ex9E` and `ExA1` with `V[x] > 0x0F`. Safe: the spec gives the fault. -/
  | keyIndex (pc op : Word) (key : Byte)
  deriving DecidableEq, Repr

/-- Why a step has no meaning. No instruction of this model is refused. -/
inductive Refusal where
  /-- Raised by an arm of `exec` whose instruction has no meaning yet. Safe. No arm raises it. -/
  | notModelled (mnemonic : String)
  deriving DecidableEq, Repr

/-- The whole state of the block. -/
structure State where
  /-- `V[0]..V[15]`; `V[15]` is VF, the flag output too (R10, R11). -/
  v : Vector Byte 16
  /-- `I` (R15). -/
  ireg : Word
  /-- `PC`, between cycles the address of the next instruction (R16). -/
  pc : Word
  /-- `SP`, the number of live stack entries, 0..16 (R20). -/
  sp : Fin 17
  /-- `STACK[0..15]` (R20). -/
  stack : Vector Word 16
  /-- The delay timer (R21). -/
  dt : Byte
  /-- The sound timer (R21). -/
  st : Byte
  /-- `MEM[0x000..0xFFF]` (R22). -/
  mem : Memory
  /-- `FB[0..31][0..63]` (R24). -/
  fb : Framebuffer
  /-- The run status (R25). -/
  rs : RunStatus
  /-- While awaiting a key, the register it goes to (R25). -/
  kx : Nibble
  /-- THE MODEL'S OWN, not the spec's (log entry 1): how many inputs of the environment have been sampled. -/
  inputs : Nat
  deriving DecidableEq, Repr

/-- The state right after a load of the empty image, with nothing placed (10_state.md R28, log entry 6). -/
def State.reset : State where
  v := Vector.replicate 16 0
  ireg := 0
  pc := 0x200
  sp := 0
  stack := Vector.replicate 16 0
  dt := 0
  st := 0
  mem := []
  fb := Vector.replicate 32 0
  rs := .run
  kx := 0
  inputs := 0

end Sys2Proof.Machine
end

