-- ==== Sys2Proof/Machine/Memory.lean ====
section
/-!
DEFINITION. Memory: what an address holds after reset, reading and writing one byte, and the canonical form
(20_memory.md R40 to R50, 10_state.md R22 and R23).
-/
namespace Sys2Proof.Machine

/-- The fontset `FONT[0..79]`, five bytes a glyph: the default table of 10_state.md R23. PRESUMED (log entry 3): the spec
marks the byte values as general knowledge. -/
def font : List Byte :=
  [0xF0, 0x90, 0x90, 0x90, 0xF0] ++ [0x20, 0x60, 0x20, 0x20, 0x70] ++ [0xF0, 0x10, 0xF0, 0x80, 0xF0] ++
  [0xF0, 0x10, 0xF0, 0x10, 0xF0] ++ [0x90, 0x90, 0xF0, 0x10, 0x10] ++ [0xF0, 0x80, 0xF0, 0x10, 0xF0] ++
  [0xF0, 0x80, 0xF0, 0x90, 0xF0] ++ [0xF0, 0x10, 0x20, 0x40, 0x40] ++ [0xF0, 0x90, 0xF0, 0x90, 0xF0] ++
  [0xF0, 0x90, 0xF0, 0x10, 0xF0] ++ [0xF0, 0x90, 0xF0, 0x90, 0x90] ++ [0xE0, 0x90, 0xE0, 0x90, 0xE0] ++
  [0xF0, 0x80, 0x80, 0x80, 0xF0] ++ [0xE0, 0x90, 0x90, 0x90, 0xE0] ++ [0xF0, 0x80, 0xF0, 0x80, 0xF0] ++
  [0xF0, 0x80, 0xF0, 0x80, 0x80]

/-- What an address that no write has changed reads as: the fontset at 0x000..0x04F, else 0 (20_memory.md R46, with the
empty image). -/
def initialByte (a : Nat) : Byte := font.getD a 0

/-- `MemRead(a, 1)` (00_scope.md R7, 20_memory.md R45). -/
def Memory.read : Memory → Nat → Byte
  | [], a => initialByte a
  | (k, b) :: m, a => if k = a then b else Memory.read m a

/-- The cell of byte `b` at `a` in front of `m`, left out where `a` holds `b` after reset anyway. -/
def Memory.cons (a : Nat) (b : Byte) (m : Memory) : Memory := if b = initialByte a then m else (a, b) :: m

/-- `MemWrite(a, 1, b)` (00_scope.md R7, 20_memory.md R45), keeping the canonical form. -/
def Memory.write : Memory → Nat → Byte → Memory
  | [], a, b => Memory.cons a b []
  | (k, c) :: m, a, b =>
    if a < k then Memory.cons a b ((k, c) :: m)
    else if a = k then Memory.cons a b m
    else (k, c) :: Memory.write m a b

/-- Bytes written one by one at `a`, `a + 1`, … in ascending order (20_memory.md R42, R44). -/
def Memory.writeBytes : Memory → Nat → List Byte → Memory
  | m, _, [] => m
  | m, a, b :: bs => Memory.writeBytes (m.write a b) (a + 1) bs

/-- The `n` bytes at `a`, `a + 1`, … in ascending order. -/
def Memory.readBytes : Memory → Nat → Nat → List Byte
  | _, _, 0 => []
  | m, a, n + 1 => m.read a :: Memory.readBytes m (a + 1) n

/-- The canonical form from address `lo` up: addresses strictly rising from `lo`, none above 0xFFF, none listed at the
value it has after reset. -/
def Memory.wfFrom : Nat → Memory → Bool
  | _, [] => true
  | lo, (k, b) :: m => lo ≤ k && k ≤ Config.addrMax && b != initialByte k && Memory.wfFrom (k + 1) m

/-- The canonical form of memory: equal memories are equal lists. -/
def Memory.wf (m : Memory) : Bool := Memory.wfFrom 0 m

end Sys2Proof.Machine
end

