-- ==== Sys2Proof/Machine/Ops.lean ====
section
/-!
DEFINITION. The named operations every meaning is written with: registers, PC, the call stack, the timers, memory, the
framebuffer, sampling an input, the fetch, and raising a fault.
-/
namespace Sys2Proof.Machine

/-- What a meaning and a step answer. -/
abbrev Result := Host.Outcome State Fault Refusal

/-! ## Registers (00_scope.md R7, 10_state.md R10, R15, R16, R21) -/

/-- `V[x]`. -/
def State.reg (s : State) (x : Nibble) : Byte := s.v[x.toNat]'x.isLt

/-- `V[x] <- b`. -/
def State.setReg (s : State) (x : Nibble) (b : Byte) : State := { s with v := s.v.set x.toNat b x.isLt }

/-- The index of VF. -/
def vf : Nibble := 0xF

/-- `I <- w`. -/
def State.setIreg (s : State) (w : Word) : State := { s with ireg := w }

/-- `PC <- w`. -/
def State.setPc (s : State) (w : Word) : State := { s with pc := w }

/-- `DT <- b`. -/
def State.setDt (s : State) (b : Byte) : State := { s with dt := b }

/-- `ST <- b`. -/
def State.setSt (s : State) (b : Byte) : State := { s with st := b }

/-- The normal advance, `PC <- PC + 2` (10_state.md R16). -/
def State.advance (s : State) : State := s.setPc (s.pc + 2)

/-- `PC <- PC + 4` where the condition of a skip holds, else `PC <- PC + 2` (10_state.md R16, 40_control_transfer.md R88). -/
def State.skipIf (s : State) (c : Bool) : State := s.setPc (s.pc + if c then 4 else 2)

/-! ## The call stack (10_state.md R20) -/

/-- The most recent live entry, `STACK[SP - 1]`. -/
def State.top (s : State) : Word := s.stack[s.sp.val - 1]'(by have := s.sp.isLt; omega)

/-- `SP <- SP - 1`; the popped entry keeps its value. -/
def State.pop (s : State) : State := { s with sp := ⟨s.sp.val - 1, by have := s.sp.isLt; omega⟩ }

/-- `STACK[SP] <- w`, then `SP <- SP + 1`. A full stack is left as it is; `2nnn` has faulted before it comes here. -/
def State.push (s : State) (w : Word) : State :=
  if h : s.sp.val < 16 then { s with stack := s.stack.set s.sp.val w h, sp := ⟨s.sp.val + 1, by omega⟩ } else s

/-! ## Memory (20_memory.md) -/

/-- `MemRead(a, 1)`. -/
def State.readByte (s : State) (a : Nat) : Byte := s.mem.read a

/-- The bytes `bs` stored at `a`, `a + 1`, …. -/
def State.store (s : State) (a : Nat) (bs : List Byte) : State := { s with mem := s.mem.writeBytes a bs }

/-- `V[i] <- MemRead(a + i, 1)` for `i` from 0 to `n - 1`, ascending. -/
def State.loadRegs (s : State) (a : Nat) : Nat → State
  | 0 => s
  | n + 1 => (s.loadRegs a n).setReg (BitVec.ofNat 4 n) (s.readByte (a + n))

/-- The fetch stage (60_exceptions.md R172, R173): the big-endian word at `PC`; `none` where `PC > 0xFFE`. -/
def State.fetch (s : State) : Option Word :=
  if 0xFFE < s.pc.toNat then none
  else some (wordOfBytes (s.readByte s.pc.toNat) (s.readByte (s.pc.toNat + 1)))

/-! ## The timers (60_exceptions.md R174) -/

/-- Minus 1 where nonzero, else 0. -/
def countDown (b : Byte) : Byte := if b = 0 then 0 else b - 1

/-- The tick stage. -/
def State.tick (s : State) : State := { s with dt := countDown s.dt, st := countDown s.st }

/-! ## The framebuffer (10_state.md R24) -/

/-- `FB[row][col]`; there is no cell outside the grid. -/
def Framebuffer.cell (fb : Framebuffer) (row col : Nat) : Bool :=
  if h : row < 32 then fb[row].getLsbD col else false

/-- `FB[row][col] <- FB[row][col] ^ 1`. -/
def Framebuffer.toggle (fb : Framebuffer) (row col : Nat) : Framebuffer :=
  if h : row < 32 then fb.set row (fb[row] ^^^ BitVec.twoPow 64 col) h else fb

/-- `FB <- fb`. -/
def State.setFb (s : State) (fb : Framebuffer) : State := { s with fb := fb }

/-- The framebuffer's read port (60_exceptions.md R171). -/
def State.pixel (s : State) (row col : Nat) : Bool := Framebuffer.cell s.fb row col

/-! ## Run status and inputs (10_state.md R25, 00_scope.md R7) -/

/-- `KX <- x`, `RS <- AWAIT_KEY` (60_exceptions.md R185). -/
def State.beginWait (s : State) (x : Nibble) : State := { s with rs := .awaitKey, kx := x }

/-- `RS <- RUN`. -/
def State.endWait (s : State) : State := { s with rs := .run }

/-- One more input of the environment has been sampled (log entry 1). -/
def State.sample (s : State) : State := { s with inputs := s.inputs + 1 }

/-- `rand_byte()`: the free byte the next input is. -/
def State.randByte (s : State) : Byte := Config.randByte s.inputs

/-- `key_held(k)`: the free level the next input is. -/
def State.keyHeld (s : State) (k : Nibble) : Bool := Config.keyHeld s.inputs k

/-! ## Faults (60_exceptions.md R175, R176) -/

/-- `raise f`: the one way an instruction ends in a fault. The event carries PC and the instruction's word; no state is
written, there is no vector and no return (R177, R179). -/
def raise (f : Word → Word → Fault) (i : Instr) (s : State) : Result := .fault (f s.pc (encode i))

end Sys2Proof.Machine
end

