-- ==== Sys2Proof/Machine/Operands.lean ====
section
/-!
DEFINITION. The operand forms: jump targets (40_control_transfer.md R88), data addresses and their range check
(42_index_and_memory.md R126, 20_memory.md R47), register ranges, key numbers (44_keypad_and_timers.md R156), BCD digits
(42_index_and_memory.md R123) and sprites (43_display.md R142).
-/
namespace Sys2Proof.Machine

/-- `zext_16(nnn)`. -/
def addrTarget (nnn : Addr) : Word := nnn.setWidth 16

/-- `nnn + V[0]`, at most 0x10FE and never reduced (40_control_transfer.md R87). -/
def indexedTarget (nnn : Addr) (s : State) : Word := BitVec.ofNat 16 (nnn.toNat + (s.reg 0).toNat)

/-- `target[0] = 1`. -/
def isOdd (target : Word) : Bool := target.getLsbD 0

/-- `PC <- target`, or `PcAlignmentFault` for an odd target (10_state.md R18). `t` is the state to move the PC of, `s` the
state at the start of the instruction. -/
def jumpTo (target : Word) (i : Instr) (s t : State) : Result :=
  if isOdd target then raise (fun pc op => .pcAlignment pc op target) i s else .next (t.setPc target)

/-- The address of data byte `k`, `I + k`, on unbounded integers (42_index_and_memory.md R126). -/
def dataAddr (s : State) (k : Nat) : Nat := s.ireg.toNat + k

/-- The range check of an instruction that accesses the `len` bytes from `I` on: `DataAddressFault` with the highest
address where that is above 0xFFF, else `done` (20_memory.md R47). No byte accessed, no check. -/
def withData (len : Nat) (i : Instr) (s : State) (done : Result) : Result :=
  if len ≠ 0 ∧ Config.addrMax < dataAddr s (len - 1) then
    raise (fun pc op => .dataAddress pc op (dataAddr s (len - 1))) i s
  else done

/-- How many registers `V[0]..V[x]` are: `x + 1` (30_encoding.md R62). -/
def regCount (x : Nibble) : Nat := x.toNat + 1

/-- The values of `V[0]..V[n - 1]`. -/
def regsBelow (s : State) (n : Nat) : List Byte := (List.range n).map (fun k => s.reg (BitVec.ofNat 4 k))

/-- The logical key a byte names: none above 0x0F (44_keypad_and_timers.md R156). -/
def keyOf (b : Byte) : Option Nibble := if 0x0F < b.toNat then none else some (b.setWidth 4)

/-- The key level test of `Ex9E` and `ExA1`: `KeyIndexFault` for a value that names no key, else one sample of the level,
and `done` with it (44_keypad_and_timers.md R150, R151). -/
def withKey (b : Byte) (i : Instr) (s : State) (done : Bool → Result) : Result :=
  match keyOf b with
  | none => raise (fun pc op => .keyIndex pc op b) i s
  | some k => done (s.keyHeld k)

/-- Hundreds, tens, units (42_index_and_memory.md R123). -/
def bcdDigits (b : Byte) : List Byte :=
  [BitVec.ofNat 8 (b.toNat / 100), BitVec.ofNat 8 (b.toNat / 10 % 10), BitVec.ofNat 8 (b.toNat % 10)]

/-- The address of the glyph of a byte, `V[x] * 5` (42_index_and_memory.md R122). -/
def glyphAddr (b : Byte) : Word := BitVec.ofNat 16 (b.toNat * 5)

/-! ## Sprites (43_display.md R141, R142) -/

/-- A cell a sprite bit targets; it may lie outside the grid. -/
structure Pixel where
  col : Nat
  row : Nat
  deriving DecidableEq, Repr

/-- Column `c` of a sprite row is bit `7 - c`: bit 7 leftmost. PRESUMED (log entry 4). -/
def spriteBit (b : Byte) (c : Nat) : Bool := b.getLsbD (7 - c)

/-- The pixels the set bits of one sprite row target, columns ascending. -/
def rowPixels (x0 row : Nat) (b : Byte) : List Pixel :=
  ((List.range 8).filter (spriteBit b)).map (fun c => ⟨x0 + c, row⟩)

/-- The pixels the set bits of a sprite target, rows outer, columns inner, both ascending. -/
def spritePixels (x0 : Nat) : Nat → List Byte → List Pixel
  | _, [] => []
  | row, b :: bs => rowPixels x0 row b ++ spritePixels x0 (row + 1) bs

/-- Whether a pixel lies in the 64x32 grid. -/
def Pixel.inGrid (p : Pixel) : Bool := p.col ≤ 63 && p.row ≤ 31

/-- The framebuffer and the collision flag after drawing pixels one by one (43_display.md R141, stage 3). -/
def drawPixels : Framebuffer → Bool → List Pixel → Framebuffer × Bool
  | fb, hit, [] => (fb, hit)
  | fb, hit, p :: ps => drawPixels (Framebuffer.toggle fb p.row p.col) (hit || Framebuffer.cell fb p.row p.col) ps

end Sys2Proof.Machine
end

