-- ==== Sys2Proof/Machine/Flags.lean ====
section
/-!
DEFINITION. The flag computations (10_state.md R12) and the order of the two writes (10_state.md R14, 41_alu.md R112).
-/
namespace Sys2Proof.Machine

/-- A flag is the byte 0x00 or 0x01 in VF (10_state.md R11). -/
def flagByte (c : Bool) : Byte := if c then 1 else 0

/-- Carry of `8xy4`: `a + b > 255`. -/
def carryFlag (a b : Byte) : Bool := 255 < a.toNat + b.toNat

/-- No borrow of `8xy5` and `8xy7`: `a >= b`. -/
def noBorrowFlag (a b : Byte) : Bool := b.toNat ≤ a.toNat

/-- The bit `8xy6` shifts out, bit 0. -/
def shrFlag (a : Byte) : Bool := a.getLsbD 0

/-- The bit `8xyE` shifts out, bit 7. -/
def shlFlag (a : Byte) : Bool := a.getLsbD 7

/-- `VF <- flag`. -/
def State.setFlag (s : State) (c : Bool) : State := s.setReg vf (flagByte c)

/-- The flag to VF first, the result to `V[x]` second: with `x = 0xF` the result stays (10_state.md R14). -/
def State.setFlagged (s : State) (x : Nibble) (c : Bool) (b : Byte) : State := (s.setFlag c).setReg x b

end Sys2Proof.Machine
end

