-- ==== Sys2Proof/Machine/Alu.lean ====
section
/-!
DEFINITION. Register loads, the 8-bit ALU and the random byte (41_alu.md). Every one ends with `PC <- PC + 2`.
-/
namespace Sys2Proof.Machine

/-- `6xkk`, R100. -/
def execLdImm (x : Nibble) (kk : Byte) (s : State) : Result := .next (s.setReg x kk).advance

/-- `7xkk`, R101: modulo 256, no flag. -/
def execAddImm (x : Nibble) (kk : Byte) (s : State) : Result := .next (s.setReg x (s.reg x + kk)).advance

/-- `8xy0`, R102. -/
def execLdReg (x y : Nibble) (s : State) : Result := .next (s.setReg x (s.reg y)).advance

/-- `8xy1`, R103: VF is left as it was. -/
def execOrReg (x y : Nibble) (s : State) : Result := .next (s.setReg x (s.reg x ||| s.reg y)).advance

/-- `8xy2`, R104: VF is left as it was. -/
def execAndReg (x y : Nibble) (s : State) : Result := .next (s.setReg x (s.reg x &&& s.reg y)).advance

/-- `8xy3`, R105: VF is left as it was. -/
def execXorReg (x y : Nibble) (s : State) : Result := .next (s.setReg x (s.reg x ^^^ s.reg y)).advance

/-- `8xy4`, R106. -/
def execAddReg (x y : Nibble) (s : State) : Result :=
  .next (s.setFlagged x (carryFlag (s.reg x) (s.reg y)) (s.reg x + s.reg y)).advance

/-- `8xy5`, R107. -/
def execSub (x y : Nibble) (s : State) : Result :=
  .next (s.setFlagged x (noBorrowFlag (s.reg x) (s.reg y)) (s.reg x - s.reg y)).advance

/-- `8xy6`, R108: in place, `y` is ignored (30_encoding.md R68). -/
def execShr (x _y : Nibble) (s : State) : Result :=
  .next (s.setFlagged x (shrFlag (s.reg x)) (s.reg x >>> 1)).advance

/-- `8xy7`, R109. -/
def execSubn (x y : Nibble) (s : State) : Result :=
  .next (s.setFlagged x (noBorrowFlag (s.reg y) (s.reg x)) (s.reg y - s.reg x)).advance

/-- `8xyE`, R110: in place, `y` is ignored (30_encoding.md R68). -/
def execShl (x _y : Nibble) (s : State) : Result :=
  .next (s.setFlagged x (shlFlag (s.reg x)) (s.reg x <<< 1)).advance

/-- `Cxkk`, R113: one free byte is drawn and ANDed with `kk`. -/
def execRnd (x : Nibble) (kk : Byte) (s : State) : Result :=
  .next (s.sample.setReg x (s.randByte &&& kk)).advance

end Sys2Proof.Machine
end

