-- ==== Sys2Proof/Machine/Control.lean ====
section
/-!
DEFINITION. Control transfer (40_control_transfer.md): RET, JP, CALL, SE, SNE, JP V0.
-/
namespace Sys2Proof.Machine

/-- `00EE`, R80: `StackUnderflow` on an empty stack, else PC is the popped entry. -/
def execRet (s : State) : Result :=
  if s.sp.val = 0 then raise .stackUnderflow .ret s else .next (s.pop.setPc s.top)

/-- `1nnn`, R81. -/
def execJp (nnn : Addr) (s : State) : Result := jumpTo (addrTarget nnn) (.jp nnn) s s

/-- `2nnn`, R82: `StackOverflow` before `PcAlignmentFault` (60_exceptions.md R178); the pushed value is `PC + 2`. -/
def execCall (nnn : Addr) (s : State) : Result :=
  if s.sp.val = 16 then raise .stackOverflow (.call nnn) s
  else jumpTo (addrTarget nnn) (.call nnn) s (s.push (s.pc + 2))

/-- `3xkk`, R83. -/
def execSeImm (x : Nibble) (kk : Byte) (s : State) : Result := .next (s.skipIf (s.reg x == kk))

/-- `4xkk`, R84. -/
def execSneImm (x : Nibble) (kk : Byte) (s : State) : Result := .next (s.skipIf (s.reg x != kk))

/-- `5xy0`, R85. -/
def execSeReg (x y : Nibble) (s : State) : Result := .next (s.skipIf (s.reg x == s.reg y))

/-- `9xy0`, R86. -/
def execSneReg (x y : Nibble) (s : State) : Result := .next (s.skipIf (s.reg x != s.reg y))

/-- `Bnnn`, R87. -/
def execJpV0 (nnn : Addr) (s : State) : Result := jumpTo (indexedTarget nnn s) (.jpV0 nnn) s s

end Sys2Proof.Machine
end

