-- ==== Sys2Proof/Machine/Display.lean ====
section
/-!
DEFINITION. The display instructions (43_display.md): CLS and DRW.
-/
namespace Sys2Proof.Machine

/-- `00E0`, R140: every cell 0, VF untouched. -/
def execCls (s : State) : Result := .next (s.setFb (Vector.replicate 32 0)).advance

/-- The pixels the sprite of `Dxyn` targets, from the registers and memory at the start of the instruction. -/
def drwPixels (x y n : Nibble) (s : State) : List Pixel :=
  spritePixels (s.reg x).toNat (s.reg y).toNat (s.mem.readBytes (dataAddr s 0) n.toNat)

/-- Stage 3 of `Dxyn`: the cells toggled and the collision flag in VF. -/
def State.draw (s : State) (ps : List Pixel) : State :=
  (s.setFb (drawPixels s.fb false ps).1).setFlag (drawPixels s.fb false ps).2

/-- Stages 2 and 3 of `Dxyn`: `DisplayBoundsFault` with the first set pixel outside the grid, else the draw. -/
def drawChecked (ps : List Pixel) (i : Instr) (s : State) : Result :=
  match ps.find? (fun p => !p.inGrid) with
  | some p => raise (fun pc op => .displayBounds pc op p.col p.row) i s
  | none => .next (s.draw ps).advance

/-- `Dxyn`, R141: the address check first, then the bounds check, then the draw (60_exceptions.md R178). -/
def execDrw (x y n : Nibble) (s : State) : Result :=
  withData n.toNat (.drw x y n) s (drawChecked (drwPixels x y n s) (.drw x y n) s)

end Sys2Proof.Machine
end

