-- ==== Sys2Proof/Machine/Index.lean ====
section
/-!
DEFINITION. The index register and the memory instructions (42_index_and_memory.md). No memory access changes I (R126).
-/
namespace Sys2Proof.Machine

/-- `Annn`, R120. -/
def execLdI (nnn : Addr) (s : State) : Result := .next (s.setIreg (addrTarget nnn)).advance

/-- `Fx1E`, R121: modulo 65536, no flag, no fault. -/
def execAddI (x : Nibble) (s : State) : Result := .next (s.setIreg (s.ireg + (s.reg x).setWidth 16)).advance

/-- `Fx29`, R122: the value is not reduced to a nibble. -/
def execLdF (x : Nibble) (s : State) : Result := .next (s.setIreg (glyphAddr (s.reg x))).advance

/-- `Fx33`, R123. -/
def execLdB (x : Nibble) (s : State) : Result :=
  withData 3 (.ldB x) s (.next (s.store (dataAddr s 0) (bcdDigits (s.reg x))).advance)

/-- `Fx55`, R124. -/
def execStRegs (x : Nibble) (s : State) : Result :=
  withData (regCount x) (.stRegs x) s (.next (s.store (dataAddr s 0) (regsBelow s (regCount x))).advance)

/-- `Fx65`, R125. -/
def execLdRegs (x : Nibble) (s : State) : Result :=
  withData (regCount x) (.ldRegs x) s (.next (s.loadRegs (dataAddr s 0) (regCount x)).advance)

end Sys2Proof.Machine
end

