-- ==== Sys2Proof/Machine/Keypad.lean ====
section
/-!
DEFINITION. The keypad and timer instructions (44_keypad_and_timers.md). The tick stage is the cycle's, not theirs.
-/
namespace Sys2Proof.Machine

/-- `Ex9E`, R150: the level of key `V[x]` is sampled once. -/
def execSkp (x : Nibble) (s : State) : Result :=
  withKey (s.reg x) (.skp x) s (fun held => .next (s.sample.skipIf held))

/-- `ExA1`, R151. -/
def execSknp (x : Nibble) (s : State) : Result :=
  withKey (s.reg x) (.sknp x) s (fun held => .next (s.sample.skipIf (!held)))

/-- `Fx07`, R152. -/
def execLdVxDt (x : Nibble) (s : State) : Result := .next (s.setReg x s.dt).advance

/-- `Fx15`, R154. -/
def execLdDtVx (x : Nibble) (s : State) : Result := .next (s.setDt (s.reg x)).advance

/-- `Fx18`, R155. -/
def execLdStVx (x : Nibble) (s : State) : Result := .next (s.setSt (s.reg x)).advance

/-- `Fx0A`, R153 part 1: the wait begins, PC is not advanced; part 2 is `keyPress`. -/
def execLdVxK (x : Nibble) (s : State) : Result := .next (s.beginWait x)

end Sys2Proof.Machine
end

