-- ==== Sys2Proof/Machine/Cycle.lean ====
section
/-!
DEFINITION. The three host operations (60_exceptions.md R170): `cycle()` (R172), `key_press(k)` (R186) and `load(p)`
(70_reset_and_hazards.md R200), and the block's outputs (60_exceptions.md R171).
-/
namespace Sys2Proof.Machine

/-! ## `cycle()` -/

/-- The event `unknown_opcode(op, pc)` (60_exceptions.md R181). -/
structure UnknownOpcode where
  op : Word
  pc : Word
  deriving DecidableEq, Repr

/-- What one `cycle()` gives: its outcome and the report it emits, if any. A fault event is the outcome's own. -/
structure CycleResult where
  outcome : Result
  report : Option UnknownOpcode

/-- Whether an instruction begins the wait, after which the cycle ends with no tick (60_exceptions.md R185). -/
def beginsWait : Instr → Bool
  | .ldVxK _ => true
  | .cls | .ret | .jp _ | .call _ | .seImm _ _ | .sneImm _ _ | .seReg _ _ | .sneReg _ _ => false
  | .ldImm _ _ | .addImm _ _ | .ldReg _ _ | .orReg _ _ | .andReg _ _ | .xorReg _ _ => false
  | .addReg _ _ | .sub _ _ | .shr _ _ | .subn _ _ | .shl _ _ => false
  | .ldI _ | .jpV0 _ | .rnd _ _ | .drw _ _ _ | .skp _ | .sknp _ => false
  | .ldVxDt _ | .ldDtVx _ | .ldStVx _ | .addI _ | .ldF _ | .ldB _ | .stRegs _ | .ldRegs _ => false

/-- The tick stage after the execute stage of `i`: a fault abandons the cycle, and `Fx0A` ends it (60_exceptions.md R172,
R174). -/
def tickAfter (i : Instr) (r : Result) : Result :=
  match r with
  | .next t => .next (if beginsWait i then t else t.tick)
  | .fault f => .fault f
  | .refused q => .refused q

/-- The cycle of a fetched word: an unknown opcode is reported and advances PC by 2, anything else executes; then the tick
stage (60_exceptions.md R172, R181). -/
def cycleOf (op : Word) (s : State) : CycleResult :=
  match decode op with
  | none => ⟨.next s.advance.tick, some ⟨op, s.pc⟩⟩
  | some i => ⟨tickAfter i (exec i s), none⟩

/-- `cycle()` (60_exceptions.md R172). -/
def cycle (s : State) : CycleResult :=
  match s.rs with
  | .awaitKey => ⟨.next s, none⟩
  | .run =>
    match s.fetch with
    | none => ⟨.fault (.fetchAddress s.pc), none⟩
    | some op => cycleOf op s

/-! ## `key_press(k)` -/

/-- `key_press(k)` (60_exceptions.md R186): during the wait it completes `Fx0A`, with the tick of the suspended cycle;
otherwise it is discarded. -/
def keyPress (k : Nibble) (s : State) : State :=
  match s.rs with
  | .run => s
  | .awaitKey => ((s.setReg s.kx (k.setWidth 8)).advance.tick).endWait

/-- The host operation that reaches the block while it awaits a key: `key_press(k)` or `cycle()`, chosen by a free value
(log entry 2). -/
def awaitInput (s : State) : State :=
  match Config.keyPressed s.inputs with
  | some k => keyPress k s.sample
  | none => s.sample

/-! ## `load(p)` -/

/-- What `load` answers (70_reset_and_hazards.md R201). -/
inductive LoadAnswer where
  | ok
  | programTooLarge
  deriving DecidableEq, Repr

/-- `load(p)` (70_reset_and_hazards.md R200): every piece of state is initialised, or, for an image that is too large,
nothing changes. The count of sampled inputs is the environment's, not the block's, and goes on (log entry 1). -/
def load (p : List Byte) (s : State) : LoadAnswer × State :=
  if imageWellFormed p then
    (.ok, { State.reset with mem := Memory.writeBytes [] Config.progBase p, inputs := s.inputs })
  else (.programTooLarge, s)

/-! ## Any host operation -/

/-- The host operations: "the block changes state only in response to" these three (60_exceptions.md R170). -/
inductive HostOp where
  | load (p : List Byte)
  | cycle
  | keyPress (k : Nibble)
  deriving DecidableEq, Repr

/-- What a host operation does to the block. -/
def applyOp (op : HostOp) (s : State) : Result :=
  match op with
  | .load p => .next (load p s).2
  | .cycle => (cycle s).outcome
  | .keyPress k => .next (keyPress k s)

/-! ## Outputs -/

/-- `tone_active` (60_exceptions.md R191). -/
def toneActive (s : State) : Bool := s.st != 0

/-- `awaiting_input` (60_exceptions.md R171). -/
def awaitingInput (s : State) : Bool := s.rs == .awaitKey

/-- The code of a fault event (60_exceptions.md R175). -/
def faultCode : Fault → Nat
  | .stackOverflow _ _ => 1
  | .stackUnderflow _ _ => 2
  | .fetchAddress _ => 3
  | .dataAddress _ _ _ => 4
  | .displayBounds _ _ _ _ => 5
  | .pcAlignment _ _ _ => 6
  | .keyIndex _ _ _ => 7

end Sys2Proof.Machine
end

