-- ==== Sys2Proof/Machine/Place.lean ====
section
/-!
DEFINITION. Placing one instruction word where the next step fetches it, for the host's own questions. It is no operation
of the block.
-/
namespace Sys2Proof.Machine

/-- The state made ready to fetch: running, and with a PC a word can be fetched at (0x200 where it has none). -/
def State.ready (s : State) : State :=
  { s with rs := .run, pc := if 0xFFE < s.pc.toNat then 0x200 else s.pc }

/-- A ready state with a word stored big-endian at PC. -/
def State.placeWord (s : State) (op : Word) : State := s.ready.store s.ready.pc.toNat (bytesOfWord op)

end Sys2Proof.Machine
end

