-- ==== Sys2Proof/Machine/Step.lean ====
section
/-!
DEFINITION. One step: the next host operation that can change the state, as log entry 2 says. While the block runs it is
`cycle()`; while it awaits a key it is `key_press(k)` or an idle `cycle()`.
-/
namespace Sys2Proof.Machine

/-- One step of the machine (60_exceptions.md R172, R186, R187). -/
def step (s : State) : Host.Outcome State Fault Refusal :=
  match s.rs with
  | .run => (cycle s).outcome
  | .awaitKey => .next (awaitInput s)

/-- `s` with the instruction whose bits are `w`, in the opcode table's numbering, where `step` fetches its next one. -/
def State.withFetchWord (s : State) (nbits w : Nat) : State := s.placeWord (tableWord nbits w)

end Sys2Proof.Machine
end

