-- ==== Sys2Proof/Machine/Keyboard.lean ====
section
/-!
DEFINITION. The host's default keyboard mapping (60_exceptions.md R190). It is no state of the block, which sees logical
keys only.
-/
namespace Sys2Proof.Machine

/-- The external key identifiers of logical keys 0x0 to 0xF, in that order (60_exceptions.md R190). -/
def externalKeys : List Char := ['X', '1', '2', '3', 'Q', 'W', 'E', 'A'] ++ ['S', 'D', 'Z', 'C', '4', 'R', 'F', 'V']

/-- The external key of a logical key. -/
def externalKey (k : Nibble) : Option Char := externalKeys[k.toNat]?

/-- The logical key of an external key, where the table has it. -/
def logicalKey (c : Char) : Option Nibble := (externalKeys.findIdx? (· == c)).map (BitVec.ofNat 4)

/-- An external key goes down: a key outside the table "reaches the block as nothing". -/
def pressExternal (c : Char) (s : State) : State :=
  match logicalKey c with
  | some k => keyPress k s
  | none => s

end Sys2Proof.Machine
end

