-- ==== Sys2Proof/Safety.lean ====
section
/-!
DEFINITION. What claims are stated in: the invariants of 10_state.md R31, the frame predicates, what a run of host
operations reaches, and the sprite geometry of 43_display.md R141 and R142 read cell by cell.
-/
namespace Sys2Proof.Machine

/-! ## Outcomes -/

/-- The state a next outcome carries. -/
def nextOf : Result → Option State
  | .next t => some t
  | .fault _ => none
  | .refused _ => none

/-- The fault a fault outcome carries. -/
def faultOf : Result → Option Fault
  | .next _ => none
  | .fault f => some f
  | .refused _ => none

/-- An outcome is a next state with a property: the operation completes. -/
def Answers (r : Result) (P : State → Prop) : Prop := ∃ t, r = .next t ∧ P t

/-- PC at the fault (60_exceptions.md R175). -/
def faultPc : Fault → Word
  | .stackOverflow pc _ | .stackUnderflow pc _ | .fetchAddress pc | .dataAddress pc _ _ => pc
  | .displayBounds pc _ _ _ | .pcAlignment pc _ _ | .keyIndex pc _ _ => pc

/-- The fetched word of a fault event, absent for code 3 (60_exceptions.md R175). -/
def faultOp : Fault → Option Word
  | .fetchAddress _ => none
  | .stackOverflow _ op | .stackUnderflow _ op | .dataAddress _ op _ => some op
  | .displayBounds _ op _ _ | .pcAlignment _ op _ | .keyIndex _ op _ => some op

/-! ## The invariants of 10_state.md R31 -/

/-- `PC` is even and at most 0x10FE. -/
abbrev PcLegal (s : State) : Prop := s.pc.toNat % 2 = 0 ∧ s.pc.toNat ≤ 0x10FE

/-- Every live stack entry is even and lies in 0x002..0x1000. -/
abbrev StackLegal (s : State) : Prop :=
  ∀ k : Fin 16, k.val < s.sp.val →
    s.stack[k.val].toNat % 2 = 0 ∧ 2 ≤ s.stack[k.val].toNat ∧ s.stack[k.val].toNat ≤ 0x1000

/-- While a key is awaited, the word at PC can be fetched and is `Fx0A` with `x = KX`. -/
abbrev WaitLegal (s : State) : Prop := s.rs = .awaitKey → s.fetch = some (encode (.ldVxK s.kx))

/-- The state invariants of 10_state.md R31 that the types do not already say, and the canonical form of memory. -/
abbrev StateInv (s : State) : Prop := PcLegal s ∧ StackLegal s ∧ Memory.wf s.mem = true ∧ WaitLegal s

/-- The state after host operations from `s`, where none of them faults (60_exceptions.md R170, R177). -/
def runOps : List HostOp → State → Option State
  | [], s => some s
  | op :: ops, s =>
    match applyOp op s with
    | .next t => runOps ops t
    | .fault _ => none
    | .refused _ => none

/-- `CALL`s executed one after another, stopping at the first that does not complete. -/
def runCalls : List Addr → State → Result
  | [], s => .next s
  | nnn :: rest, s =>
    match exec (.call nnn) s with
    | .next t => runCalls rest t
    | .fault f => .fault f
    | .refused q => .refused q

/-- The block runs and the word at PC is that of `i`. -/
def AtInstr (i : Instr) (s : State) : Prop := s.rs = .run ∧ s.fetch = some (encode i)

/-! ## Frames: what a next state leaves as it was -/

/-- Every general register that `p` picks is unchanged. -/
def RegsKept (p : Nibble → Prop) (s t : State) : Prop := ∀ r, p r → t.reg r = s.reg r

/-- Every byte of memory whose address `p` picks reads as before. -/
def MemKept (p : Nat → Prop) (s t : State) : Prop := ∀ a, p a → t.readByte a = s.readByte a

/-- Every cell of the framebuffer is unchanged. -/
def ScreenKept (s t : State) : Prop := ∀ row col, t.pixel row col = s.pixel row col

/-- SP and every stack entry, live or dead, are unchanged. -/
def StackKept (s t : State) : Prop := t.sp = s.sp ∧ t.stack = s.stack

/-- Both timers are unchanged. -/
def TimersKept (s t : State) : Prop := t.dt = s.dt ∧ t.st = s.st

/-- RS and KX are unchanged. -/
def WaitKept (s t : State) : Prop := t.rs = s.rs ∧ t.kx = s.kx

/-- Everything but the general registers, PC and the count of sampled inputs is unchanged. -/
def AllButRegsKept (s t : State) : Prop :=
  t.ireg = s.ireg ∧ StackKept s t ∧ TimersKept s t ∧ WaitKept s t ∧ ScreenKept s t ∧ MemKept (fun _ => True) s t

/-- `V[x]` becomes `b`, PC advances by 2, and nothing else changes. -/
def WroteReg (x : Nibble) (b : Byte) (s t : State) : Prop :=
  t.reg x = b ∧ RegsKept (· ≠ x) s t ∧ t.pc = s.pc + 2 ∧ AllButRegsKept s t ∧ t.inputs = s.inputs

/-- `V[x]` becomes `b`, VF becomes the flag unless `x` is VF, PC advances by 2, and nothing else changes
(10_state.md R14). -/
def WroteFlagged (x : Nibble) (c : Bool) (b : Byte) (s t : State) : Prop :=
  t.reg x = b ∧ (x ≠ 0xF → t.reg 0xF = if c then 1 else 0) ∧ RegsKept (fun r => r ≠ x ∧ r ≠ 0xF) s t ∧
    t.pc = s.pc + 2 ∧ AllButRegsKept s t ∧ t.inputs = s.inputs

/-- PC becomes `w`, and nothing else changes but, where a key level was sampled, the count of sampled inputs. -/
def WrotePc (w : Word) (s t : State) : Prop := t.pc = w ∧ RegsKept (fun _ => True) s t ∧ AllButRegsKept s t

/-! ## The sprite of `Dxyn`, cell by cell -/

/-- Bit `7 - c` of the sprite byte of row `r`, `MEM[I + r]`, for `r < n` and `c < 8` (43_display.md R142). -/
def spriteSet (n : Nibble) (s : State) (r c : Nat) : Bool :=
  r < n.toNat && c < 8 && (s.readByte (s.ireg.toNat + r)).getLsbD (7 - c)

/-- Whether a set bit of the sprite drawn at `(V[x], V[y])` targets the cell `(row, col)`. -/
def spriteHits (x y n : Nibble) (s : State) (row col : Nat) : Bool :=
  (s.reg y).toNat ≤ row && (s.reg x).toNat ≤ col &&
    spriteSet n s (row - (s.reg y).toNat) (col - (s.reg x).toNat)

/-- Every set bit of the sprite targets a cell of the grid. -/
def SpriteInGrid (x y n : Nibble) (s : State) : Prop :=
  ∀ r c, spriteSet n s r c = true → (s.reg x).toNat + c ≤ 63 ∧ (s.reg y).toNat + r ≤ 31

/-- How many of the 2048 cells of the grid have a property. -/
def countCells (f : Nat → Nat → Bool) : Nat :=
  ((List.range 32).flatMap (fun row => (List.range 64).map (fun col => (row, col)))).countP (fun c => f c.1 c.2)

/-- Every sprite byte can be read; a sprite of no rows reads none (20_memory.md R47). -/
def SpriteReadable (n : Nibble) (s : State) : Prop := n = 0 ∨ s.ireg.toNat + n.toNat - 1 ≤ 0xFFF

end Sys2Proof.Machine
end

