-- ==== Sys2Proof/Certificates/Slice0/Obligations.lean ====
section
/-!
DEFINITION. The statements for the provers, from the numbered rules of the spec. Each docstring names the rule.
-/
open Sys2Proof Sys2Proof.Machine

/-! ## Encoding -/

/-- R61, R62, R64 (which words are none of the map is the spec's decision D18): the decoder and the encoder agree, word
for word and instruction for instruction. No operand bit is dropped, and no word other than `encode i` decodes to
`i`. -/
def Obligations.DecodeIffEncode : Prop :=
  ∀ (op : Word) (i : Instr), i.wellFormed = true ∧ (decode op = some i ↔ op = encode i)

/-- R63 (the full match is the spec's decision D18): decoding is the full match of `op & mask = match`; the rows are
disjoint; a word that matches none is unknown. -/
def Obligations.DecodeIsFullMatch : Prop :=
  ∀ op : Word,
    (∀ i, decode op = some i → opRow i ∈ opcodeMap ∧ (opRow i).matches op = true) ∧
      (∀ r ∈ opcodeMap, ∀ r' ∈ opcodeMap, r.matches op = true → r'.matches op = true → r = r') ∧
      (decode op = none ↔ ∀ r ∈ opcodeMap, r.matches op = false)

/-- Words written out from the vectors of 95_test_vectors.md, section 2.1, decode as they say (the unknown ones by the
spec's decision D18). -/
def Obligations.WrittenWordsDecode : Prop :=
  decode 0x00E0 = some .cls ∧ decode 0x00EE = some .ret ∧ decode 0x0000 = none ∧ decode 0x10E0 = some (.jp 0x0E0) ∧
    decode 0x3F00 = some (.seImm 0xF 0x00) ∧ decode 0x5AB0 = some (.seReg 0xA 0xB) ∧ decode 0x5AB1 = none ∧
    decode 0x8ABE = some (.shl 0xA 0xB) ∧ decode 0xD125 = some (.drw 1 2 5) ∧ decode 0xE1A1 = some (.sknp 1) ∧
    decode 0xF165 = some (.ldRegs 1) ∧ decode 0xFFFF = none

/-- R65, R66, R67, R69: which words are instructions, by major opcode. That no other word is one is the full-match
reading, the spec's decision D18 (log entry 11). -/
def Obligations.UnknownOpcodeWords : Prop :=
  ∀ op : Word,
    (fieldMajor op = 0x0 → ((decode op).isSome = true ↔ op = 0x00E0 ∨ op = 0x00EE)) ∧
      (fieldMajor op ∈ ([0x5, 0x9] : List Nibble) → ((decode op).isSome = true ↔ fieldN op = 0)) ∧
      (fieldMajor op = 0x8 →
        ((decode op).isSome = true ↔ fieldN op ∉ ([0x8, 0x9, 0xA, 0xB, 0xC, 0xD, 0xF] : List Nibble))) ∧
      (fieldMajor op = 0xE → ((decode op).isSome = true ↔ fieldKk op ∈ ([0x9E, 0xA1] : List Byte))) ∧
      (fieldMajor op = 0xF →
        ((decode op).isSome = true ↔
          fieldKk op ∈ ([0x07, 0x0A, 0x15, 0x18, 0x1E, 0x29, 0x33, 0x55, 0x65] : List Byte))) ∧
      (fieldMajor op ∉ ([0x0, 0x5, 0x8, 0x9, 0xE, 0xF] : List Nibble) → (decode op).isSome = true)

/-- R68 (the spec's decision D18): for every `y` a shift of `Vx` behaves the same, and `V[y]` is neither read nor
written: another value `b` in a `V[y]` that is neither `V[x]` nor VF comes out as it went in and changes nothing
else. -/
def Obligations.ShiftIgnoresVy : Prop :=
  ∀ (x y y' : Nibble) (b : Byte) (s : State),
    exec (.shr x y) s = exec (.shr x y') s ∧ exec (.shl x y) s = exec (.shl x y') s ∧
      (y ≠ x → y ≠ 0xF →
        (nextOf (exec (.shr x y) (s.setReg y b)) = (nextOf (exec (.shr x y) s)).map (fun t => t.setReg y b)) ∧
          nextOf (exec (.shl x y) (s.setReg y b)) = (nextOf (exec (.shl x y) s)).map (fun t => t.setReg y b))

/-! ## The cycle -/

/-- R172 (the tick and its exception, the spec's decisions D16 and D19): where the block runs and the word at PC decodes
to `i`, a step is `exec i`, and then the tick stage unless `i` is `Fx0A`. A fault abandons the cycle. The tick
itself is `TimersTickOncePerCycle`. -/
def Obligations.StepRunsDecodedInstruction : Prop :=
  ∀ (s : State) (op : Word) (i : Instr), s.rs = .run → s.fetch = some op → decode op = some i → i.wellFormed = true →
    step s = (match exec i s with
      | .next t => .next (if (∃ x, i = .ldVxK x) then t else t.tick)
      | .fault f => .fault f
      | .refused q => .refused q) ∧
    (cycle s).report = none

/-- R41, R47, R173: the fetch is the big-endian word at PC for `PC ≤ 0xFFE`, from two bytes; for any other PC the step
ends in `FetchAddressFault` with that PC (the spec's decision D9). -/
def Obligations.FetchIsBigEndian : Prop :=
  ∀ s : State,
    (s.pc.toNat ≤ 0xFFE → ∃ op, s.fetch = some op ∧
      op.toNat = 256 * (s.readByte s.pc.toNat).toNat + (s.readByte (s.pc.toNat + 1)).toNat) ∧
      (0xFFE < s.pc.toNat → s.fetch = none ∧ (s.rs = .run → step s = .fault (.fetchAddress s.pc)))

/-- R181: an unknown opcode is reported with its word and its address, PC advances by 2, the timers tick, and nothing
else changes (the tick and the report's content are the spec's decision D23). -/
def Obligations.UnknownOpcodeReportsAndAdvances : Prop :=
  ∀ (s : State) (op : Word), s.rs = .run → s.fetch = some op → decode op = none →
    (cycle s).report = some ⟨op, s.pc⟩ ∧
      Answers (step s) (fun t =>
        t.pc = s.pc + 2 ∧ t.dt.toNat = s.dt.toNat - 1 ∧ t.st.toNat = s.st.toNat - 1 ∧ RegsKept (fun _ => True) s t ∧
          t.ireg = s.ireg ∧ StackKept s t ∧ WaitKept s t ∧ ScreenKept s t ∧ MemKept (fun _ => True) s t ∧
          t.inputs = s.inputs)

/-- R52, which the spec marks as derived: a byte pair that `Fx55` stored is what a later fetch at that address reads, in
any state with that memory. -/
def Obligations.FetchSeesStores : Prop :=
  ∀ (s t u : State) (x : Nibble) (j : Nat), Memory.wf s.mem = true → exec (.stRegs x) s = .next t → j + 1 ≤ x.toNat →
    u.mem = t.mem → u.pc.toNat = s.ireg.toNat + j →
    u.fetch = some (wordOfBytes (s.reg (BitVec.ofNat 4 j)) (s.reg (BitVec.ofNat 4 (j + 1))))

/-- R174: in a step that completes, each timer the execute stage left nonzero goes down by one, once; after `Fx0A` none
does, and none in `cycle()` during the wait (the spec's decision D19). -/
def Obligations.TimersTickOncePerCycle : Prop :=
  ∀ (s : State) (op : Word),
    (∀ (i : Instr) (u t : State), s.rs = .run → s.fetch = some op → decode op = some i → exec i s = .next u →
      step s = .next t →
      if (∃ x, i = .ldVxK x) then TimersKept u t else t.dt.toNat = u.dt.toNat - 1 ∧ t.st.toNat = u.st.toNat - 1) ∧
    (∀ t, s.rs = .run → s.fetch = some op → decode op = none → step s = .next t →
      t.dt.toNat = s.dt.toNat - 1 ∧ t.st.toNat = s.st.toNat - 1) ∧
    (∀ t, s.rs = .awaitKey → (cycle s).outcome = .next t → TimersKept s t)

/-- R185, R187 (the spec's decision D16): while a key is awaited `cycle()` does nothing and reports nothing. The model's
step (log entry 2) then either changes nothing but the count of sampled inputs, or is a key press. -/
def Obligations.WaitingCycleDoesNothing : Prop :=
  ∀ s : State, s.rs = .awaitKey →
    (cycle s).outcome = .next s ∧ (cycle s).report = none ∧
      Answers (step s) (fun t =>
        t = { s with inputs := s.inputs + 1 } ∨ ∃ k, t = { keyPress k s with inputs := s.inputs + 1 })

/-- R186 (the spec's decision D16): a key press during the wait writes the key to `V[KX]`, advances PC, ticks once and
ends the wait; a key press while the block runs is discarded. -/
def Obligations.KeyPressCompletesWait : Prop :=
  ∀ (s : State) (k : Nibble),
    (s.rs = .awaitKey →
      (keyPress k s).reg s.kx = k.setWidth 8 ∧ RegsKept (· ≠ s.kx) s (keyPress k s) ∧ (keyPress k s).pc = s.pc + 2 ∧
        (keyPress k s).dt.toNat = s.dt.toNat - 1 ∧ (keyPress k s).st.toNat = s.st.toNat - 1 ∧
        (keyPress k s).rs = .run ∧ (keyPress k s).kx = s.kx ∧ (keyPress k s).ireg = s.ireg ∧
        StackKept s (keyPress k s) ∧ ScreenKept s (keyPress k s) ∧ MemKept (fun _ => True) s (keyPress k s) ∧
        (keyPress k s).inputs = s.inputs) ∧
      (s.rs = .run → keyPress k s = s)

/-! ## Load and reset -/

/-- R200, R202: the state after a load of an image of at most 3584 bytes, from any state: fontset, image, zeros, and
every register as the rule says. I, the stack entries, RS and KX are the spec's decision D3; the fontset bytes are
log entry 3. -/
def Obligations.LoadGivesPostLoadState : Prop :=
  ∀ (p : List Byte) (s : State), p.length ≤ 3584 →
    (load p s).1 = .ok ∧
      (∀ r, (load p s).2.reg r = 0) ∧ (load p s).2.ireg = 0 ∧ (load p s).2.pc = 0x200 ∧ (load p s).2.sp.val = 0 ∧
      (∀ k : Fin 16, (load p s).2.stack[k.val] = 0) ∧ (load p s).2.dt = 0 ∧ (load p s).2.st = 0 ∧
      (∀ row col, (load p s).2.pixel row col = false) ∧ (load p s).2.rs = .run ∧ (load p s).2.kx = 0 ∧
      (∀ a, a < 0x50 → (load p s).2.readByte a = font.getD a 0) ∧
      (∀ j, j < p.length → (load p s).2.readByte (0x200 + j) = p.getD j 0) ∧
      (∀ a, 0x50 ≤ a → (a < 0x200 ∨ 0x200 + p.length ≤ a) → (load p s).2.readByte a = 0) ∧
      (∀ s', { (load p s).2 with inputs := 0 } = { (load p s').2 with inputs := 0 })

/-- R201, R182: a longer image is rejected with `ProgramTooLarge` and every piece of state left as it was; 3584 bytes
are accepted; after the empty image the first cycle fetches the unknown word 0x0000 at 0x200; the byte after a
shorter image, the low byte of the last word of one of odd length, is 0. That 0x0000 is unknown is the full-match
reading, the spec's decision D18, and what its report holds is the decision D23 (R181; log entry 11). -/
def Obligations.LoadRejectsOversized : Prop :=
  ∀ (p : List Byte) (s : State),
    (3584 < p.length → load p s = (.programTooLarge, s)) ∧ (p.length ≤ 3584 → (load p s).1 = .ok) ∧
      (cycle (load [] s).2).report = some ⟨0x0000, 0x200⟩ ∧
      (p.length < 3584 → (load p s).2.readByte (0x200 + p.length) = 0)

/-- R28, with the empty image (log entry 6 says that State.reset is that state; the fontset bytes are log entry 3):
every field after reset. The count of sampled inputs is the model's own and not mentioned. -/
def Obligations.ResetIsPostLoad : Prop :=
  (∀ r, State.reset.reg r = 0) ∧ State.reset.ireg = 0 ∧ State.reset.pc = 0x200 ∧ State.reset.sp.val = 0 ∧
    (∀ k : Fin 16, State.reset.stack[k.val] = 0) ∧ State.reset.dt = 0 ∧ State.reset.st = 0 ∧
    (∀ row col, State.reset.pixel row col = false) ∧ State.reset.rs = .run ∧ State.reset.kx = 0 ∧
    (∀ a, a < 0x50 → State.reset.readByte a = font.getD a 0) ∧ (∀ a, 0x50 ≤ a → State.reset.readByte a = 0) ∧
    ∀ s : State, { (load [] s).2 with inputs := 0 } = { State.reset with inputs := 0 }

/-! ## Invariants -/

/-- The invariants of R31, which the spec marks as derived, and the model's canonical form of memory (log entry 6) hold
at reset. -/
def Obligations.ResetMeetsInv : Prop := StateInv State.reset

/-- R31, R18, R19, R20, which rest on the spec's decisions D4, D8, D9 and D16: every step (log entry 2) keeps the
invariants. -/
def Obligations.StepKeepsInv : Prop := ∀ s t : State, StateInv s → step s = .next t → StateInv t

/-- R31, R170, resting on the spec's decisions D3, D4, D8, D9 and D16, with the model's canonical form of memory (log
entry 6): every host operation, a load of any image included, keeps the invariants, from every state that meets
them. -/
def Obligations.HostOperationsKeepInv : Prop :=
  ∀ (op : HostOp) (s t : State), StateInv s → applyOp op s = .next t → StateInv t

/-- R31, which the spec marks as derived and which rests on its decisions D4, D8, D9 and D16, with the model's canonical
form of memory (log entry 6): the invariants hold in every state that any host operations reach from a successful
load. -/
def Obligations.ReachableStatesMeetInv : Prop :=
  ∀ (p : List Byte) (s t : State) (ops : List HostOp), p.length ≤ 3584 → runOps ops (load p s).2 = some t →
    t.pc.toNat % 2 = 0 ∧ t.pc.toNat ≤ 0x10FE ∧ t.sp.val ≤ 16 ∧
      (∀ k : Fin 16, k.val < t.sp.val →
        t.stack[k.val].toNat % 2 = 0 ∧ 2 ≤ t.stack[k.val].toNat ∧ t.stack[k.val].toNat ≤ 0x1000) ∧
      (t.rs = .awaitKey → t.pc.toNat ≤ 0xFFE ∧
        wordOfBytes (t.readByte t.pc.toNat) (t.readByte (t.pc.toNat + 1)) = encode (.ldVxK t.kx)) ∧
      Memory.wf t.mem = true

/-- The canonical form of memory, the model's own (log entry 6), is kept by every instruction, from every state that has
it. -/
def Obligations.ExecKeepsMemoryCanonical : Prop :=
  ∀ (i : Instr) (s t : State), Memory.wf s.mem = true → exec i s = .next t → Memory.wf t.mem = true

/-! ## Control transfer -/

/-- R80 (the value popped is the spec's decision D4): RET pops into PC unchanged, the popped entry keeps its value; on
an empty stack it raises `StackUnderflow`. -/
def Obligations.RetRule : Prop :=
  ∀ s : State,
    decode 0x00EE = some .ret ∧
      (s.sp.val = 0 → exec .ret s = .fault (.stackUnderflow s.pc 0x00EE)) ∧
      (∀ k : Fin 16, s.sp.val = k.val + 1 →
        Answers (exec .ret s) (fun t =>
          t.sp.val = k.val ∧ t.pc = s.stack[k.val] ∧ t.stack = s.stack ∧ RegsKept (fun _ => True) s t ∧ t.ireg = s.ireg ∧
            TimersKept s t ∧ WaitKept s t ∧ ScreenKept s t ∧ MemKept (fun _ => True) s t ∧ t.inputs = s.inputs))

/-- R81: JP sets PC to an even target; an odd one (the spec's decision D8) raises `PcAlignmentFault` with the target. -/
def Obligations.JpRule : Prop :=
  ∀ (nnn : Addr) (s : State),
    decode (packAddr 0x1 nnn) = some (.jp nnn) ∧
      (nnn.toNat % 2 = 0 → Answers (exec (.jp nnn) s) (fun t => WrotePc (nnn.setWidth 16) s t ∧ t.inputs = s.inputs)) ∧
      (nnn.toNat % 2 = 1 →
        exec (.jp nnn) s = .fault (.pcAlignment s.pc (packAddr 0x1 nnn) (nnn.setWidth 16)))

/-- R82 (the spec's decisions D4, D8, D21): CALL pushes `PC + 2` and jumps; with 16 entries it raises `StackOverflow`,
checked first; an odd target raises `PcAlignmentFault`. -/
def Obligations.CallRule : Prop :=
  ∀ (nnn : Addr) (s : State),
    decode (packAddr 0x2 nnn) = some (.call nnn) ∧
      (s.sp.val = 16 → exec (.call nnn) s = .fault (.stackOverflow s.pc (packAddr 0x2 nnn))) ∧
      (s.sp.val < 16 → nnn.toNat % 2 = 1 →
        exec (.call nnn) s = .fault (.pcAlignment s.pc (packAddr 0x2 nnn) (nnn.setWidth 16))) ∧
      (s.sp.val < 16 → nnn.toNat % 2 = 0 →
        Answers (exec (.call nnn) s) (fun t =>
          t.pc = nnn.setWidth 16 ∧ t.sp.val = s.sp.val + 1 ∧
            (∀ k : Fin 16, t.stack[k.val] = if k.val = s.sp.val then s.pc + 2 else s.stack[k.val]) ∧
            RegsKept (fun _ => True) s t ∧ t.ireg = s.ireg ∧ TimersKept s t ∧ WaitKept s t ∧ ScreenKept s t ∧
            MemKept (fun _ => True) s t ∧ t.inputs = s.inputs))

/-- R87 (the spec's decisions D8, D9): JP V0 sets PC to `nnn + V[0]`, not reduced; an odd sum raises `PcAlignmentFault`. -/
def Obligations.JpV0Rule : Prop :=
  ∀ (nnn : Addr) (s : State),
    decode (packAddr 0xB nnn) = some (.jpV0 nnn) ∧
      ((nnn.toNat + (s.reg 0).toNat) % 2 = 0 →
        Answers (exec (.jpV0 nnn) s) (fun t =>
          t.pc.toNat = nnn.toNat + (s.reg 0).toNat ∧ WrotePc t.pc s t ∧ t.inputs = s.inputs)) ∧
      ((nnn.toNat + (s.reg 0).toNat) % 2 = 1 →
        exec (.jpV0 nnn) s =
          .fault (.pcAlignment s.pc (packAddr 0xB nnn) (BitVec.ofNat 16 (nnn.toNat + (s.reg 0).toNat))))

/-- R83, R84, R85, R86: the four register skips advance PC by exactly 4 where their condition holds, else by exactly
2, and change nothing else; a register compare with another last nibble than 0 is an unknown opcode. That those
words are unknown (R66) is the full-match reading, the spec's decision D18 (log entry 11). -/
def Obligations.SkipRules : Prop :=
  ∀ (x y : Nibble) (kk : Byte) (s : State),
    (∀ m : Nibble, m ≠ 0 → decode (packNibbles 0x5 x y m) = none ∧ decode (packNibbles 0x9 x y m) = none) ∧
      decode (packByte 0x3 x kk) = some (.seImm x kk) ∧ decode (packByte 0x4 x kk) = some (.sneImm x kk) ∧
      decode (packNibbles 0x5 x y 0) = some (.seReg x y) ∧ decode (packNibbles 0x9 x y 0) = some (.sneReg x y) ∧
      Answers (exec (.seImm x kk) s) (fun t =>
        WrotePc (s.pc + if s.reg x = kk then 4 else 2) s t ∧ t.inputs = s.inputs) ∧
      Answers (exec (.sneImm x kk) s) (fun t =>
        WrotePc (s.pc + if s.reg x ≠ kk then 4 else 2) s t ∧ t.inputs = s.inputs) ∧
      Answers (exec (.seReg x y) s) (fun t =>
        WrotePc (s.pc + if s.reg x = s.reg y then 4 else 2) s t ∧ t.inputs = s.inputs) ∧
      Answers (exec (.sneReg x y) s) (fun t =>
        WrotePc (s.pc + if s.reg x ≠ s.reg y then 4 else 2) s t ∧ t.inputs = s.inputs)

/-- R20, R80, R82 (the spec's decision D4): a RET that finds the stack as a CALL left it returns to the instruction
after the CALL, with SP as before the CALL, whatever else happened in between. -/
def Obligations.RetReturnsAfterCall : Prop :=
  ∀ (nnn : Addr) (s t u : State), exec (.call nnn) s = .next t → StackKept t u →
    Answers (exec .ret u) (fun w => w.pc = s.pc + 2 ∧ w.sp = s.sp ∧ ∀ k : Fin 16, k.val < s.sp.val →
      w.stack[k.val] = s.stack[k.val])

/-- R20, R82: CALLs to even targets nest until 16 entries are live, and the next one raises `StackOverflow`. -/
def Obligations.CallsNestToSixteen : Prop :=
  ∀ (targets : List Addr) (s : State), (∀ nnn ∈ targets, nnn.toNat % 2 = 0) →
    (s.sp.val + targets.length ≤ 16 → Answers (runCalls targets s) (fun t => t.sp.val = s.sp.val + targets.length)) ∧
      (16 < s.sp.val + targets.length →
        ∃ f, runCalls targets s = .fault f ∧ faultCode f = 1 ∧
          faultOp f = (targets[16 - s.sp.val]?).map (fun nnn => encode (.call nnn)))

/-! ## Register loads and ALU -/

/-- R100, R102: the two loads of a register. -/
def Obligations.LoadRegisterRules : Prop :=
  ∀ (x y : Nibble) (kk : Byte) (s : State),
    decode (packByte 0x6 x kk) = some (.ldImm x kk) ∧ decode (packNibbles 0x8 x y 0x0) = some (.ldReg x y) ∧
      Answers (exec (.ldImm x kk) s) (WroteReg x kk s) ∧ Answers (exec (.ldReg x y) s) (WroteReg x (s.reg y) s)

/-- R103, R104, R105: the logical operations, bit by bit; VF is left as it was unless it is the destination. -/
def Obligations.LogicRules : Prop :=
  ∀ (x y : Nibble) (s : State),
    decode (packNibbles 0x8 x y 0x1) = some (.orReg x y) ∧ decode (packNibbles 0x8 x y 0x2) = some (.andReg x y) ∧
      decode (packNibbles 0x8 x y 0x3) = some (.xorReg x y) ∧
      Answers (exec (.orReg x y) s) (fun t =>
        WroteReg x (t.reg x) s t ∧ ∀ k, (t.reg x).getLsbD k = ((s.reg x).getLsbD k || (s.reg y).getLsbD k)) ∧
      Answers (exec (.andReg x y) s) (fun t =>
        WroteReg x (t.reg x) s t ∧ ∀ k, (t.reg x).getLsbD k = ((s.reg x).getLsbD k && (s.reg y).getLsbD k)) ∧
      Answers (exec (.xorReg x y) s) (fun t =>
        WroteReg x (t.reg x) s t ∧ ∀ k, (t.reg x).getLsbD k = ((s.reg x).getLsbD k != (s.reg y).getLsbD k))

/-- R101: add immediate modulo 256, no flag. -/
def Obligations.AddImmediateRule : Prop :=
  ∀ (x : Nibble) (kk : Byte) (s : State),
    decode (packByte 0x7 x kk) = some (.addImm x kk) ∧
      Answers (exec (.addImm x kk) s) (fun t =>
        (t.reg x).toNat = ((s.reg x).toNat + kk.toNat) % 256 ∧ WroteReg x (t.reg x) s t)

/-- R106, R112: add with carry, with the cases x = F and y = F as the spec's decision D5 has them (log entry 11); the
flag first, the result second, both from the operands before the instruction. -/
def Obligations.AddRegisterRule : Prop :=
  ∀ (x y : Nibble) (s : State),
    decode (packNibbles 0x8 x y 0x4) = some (.addReg x y) ∧
      Answers (exec (.addReg x y) s) (fun t =>
        (t.reg x).toNat = ((s.reg x).toNat + (s.reg y).toNat) % 256 ∧
          WroteFlagged x (decide ((s.reg x).toNat + (s.reg y).toNat > 255)) (t.reg x) s t)

/-- R107, R109, R112, with the cases x = F and y = F as the spec's decision D5 has them (log entry 11): subtract and
reverse subtract; VF is 1 where there is no borrow. -/
def Obligations.SubtractRules : Prop :=
  ∀ (x y : Nibble) (s : State),
    decode (packNibbles 0x8 x y 0x5) = some (.sub x y) ∧ decode (packNibbles 0x8 x y 0x7) = some (.subn x y) ∧
      Answers (exec (.sub x y) s) (fun t =>
        (t.reg x).toNat =
            (if (s.reg x).toNat ≥ (s.reg y).toNat then (s.reg x).toNat - (s.reg y).toNat
              else (s.reg x).toNat + 256 - (s.reg y).toNat) ∧
          WroteFlagged x (decide ((s.reg x).toNat ≥ (s.reg y).toNat)) (t.reg x) s t) ∧
      Answers (exec (.subn x y) s) (fun t =>
        (t.reg x).toNat =
            (if (s.reg y).toNat ≥ (s.reg x).toNat then (s.reg y).toNat - (s.reg x).toNat
              else (s.reg y).toNat + 256 - (s.reg x).toNat) ∧
          WroteFlagged x (decide ((s.reg y).toNat ≥ (s.reg x).toNat)) (t.reg x) s t)

/-- R108, R110, R112, with the case x = F as the spec's decision D5 has it (log entry 11): the shifts by one, in place;
VF is the bit shifted out. -/
def Obligations.ShiftRules : Prop :=
  ∀ (x y : Nibble) (s : State),
    decode (packNibbles 0x8 x y 0x6) = some (.shr x y) ∧ decode (packNibbles 0x8 x y 0xE) = some (.shl x y) ∧
      Answers (exec (.shr x y) s) (fun t =>
        (t.reg x).toNat = (s.reg x).toNat / 2 ∧
          WroteFlagged x (decide ((s.reg x).toNat % 2 = 1)) (t.reg x) s t) ∧
      Answers (exec (.shl x y) s) (fun t =>
        (t.reg x).toNat = (s.reg x).toNat * 2 % 256 ∧
          WroteFlagged x (decide (128 ≤ (s.reg x).toNat)) (t.reg x) s t)

/-- R113: RND draws one free byte and ANDs it with `kk`, so no bit is set that `kk` lacks. The byte is the model's free
value (log entry 1): the statement holds for each of its values. -/
def Obligations.RandomRule : Prop :=
  ∀ (x : Nibble) (kk : Byte) (s : State),
    decode (packByte 0xC x kk) = some (.rnd x kk) ∧
      Answers (exec (.rnd x kk) s) (fun t =>
        (∃ r : Byte, r = Config.randByte s.inputs ∧ ∀ k, (t.reg x).getLsbD k = (r.getLsbD k && kk.getLsbD k)) ∧
          RegsKept (· ≠ x) s t ∧ t.pc = s.pc + 2 ∧ AllButRegsKept s t ∧ t.inputs = s.inputs + 1)

/-- R12, R13 (that Fx1E writes no flag is the spec's decision D10 too): an instruction that changes VF is one of the six
flag writers, or has VF as its named destination, or is an `Fx65` whose range reaches VF. The flags themselves are
in the rules of those instructions. -/
def Obligations.FlagWriters : Prop :=
  ∀ (i : Instr) (s t : State), exec i s = .next t → t.reg 0xF ≠ s.reg 0xF →
    (∃ x y, i = .addReg x y ∨ i = .sub x y ∨ i = .shr x y ∨ i = .subn x y ∨ i = .shl x y) ∨
      (∃ x y n, i = .drw x y n) ∨
      (∃ kk y, i = .ldImm 0xF kk ∨ i = .addImm 0xF kk ∨ i = .rnd 0xF kk ∨ i = .ldReg 0xF y ∨ i = .orReg 0xF y ∨
        i = .andReg 0xF y ∨ i = .xorReg 0xF y) ∨
      i = .ldVxDt 0xF ∨ i = .ldRegs 0xF

/-! ## Index register and memory -/

/-- R120, R122: LD I and LD F, by the exact value and product; no flag, no fault, whatever `V[x]` holds. -/
def Obligations.IndexLoadRules : Prop :=
  ∀ (x : Nibble) (nnn : Addr) (s : State),
    decode (packAddr 0xA nnn) = some (.ldI nnn) ∧ decode (packByte 0xF x 0x29) = some (.ldF x) ∧
      Answers (exec (.ldI nnn) s) (fun t => t.ireg.toNat = nnn.toNat ∧ t.pc = s.pc + 2 ∧
        RegsKept (fun _ => True) s t ∧ StackKept s t ∧ TimersKept s t ∧ WaitKept s t ∧ ScreenKept s t ∧
        MemKept (fun _ => True) s t ∧ t.inputs = s.inputs) ∧
      Answers (exec (.ldF x) s) (fun t => t.ireg.toNat = (s.reg x).toNat * 5 ∧ t.pc = s.pc + 2 ∧
        RegsKept (fun _ => True) s t ∧ StackKept s t ∧ TimersKept s t ∧ WaitKept s t ∧ ScreenKept s t ∧
        MemKept (fun _ => True) s t ∧ t.inputs = s.inputs)

/-- R121: ADD I adds modulo 65536, with no flag and no fault (the spec's decision D10). -/
def Obligations.AddIndexRule : Prop :=
  ∀ (x : Nibble) (s : State),
    decode (packByte 0xF x 0x1E) = some (.addI x) ∧
      Answers (exec (.addI x) s) (fun t => t.ireg.toNat = (s.ireg.toNat + (s.reg x).toNat) % 65536 ∧ t.pc = s.pc + 2 ∧
        RegsKept (fun _ => True) s t ∧ StackKept s t ∧ TimersKept s t ∧ WaitKept s t ∧ ScreenKept s t ∧
        MemKept (fun _ => True) s t ∧ t.inputs = s.inputs)

/-- R123: LD B stores hundreds, tens, units at I, I + 1, I + 2, where all three are in range; else it faults with I + 2. -/
def Obligations.BcdRule : Prop :=
  ∀ (x : Nibble) (s : State), Memory.wf s.mem = true →
    decode (packByte 0xF x 0x33) = some (.ldB x) ∧
      (0xFFF < s.ireg.toNat + 2 →
        exec (.ldB x) s = .fault (.dataAddress s.pc (packByte 0xF x 0x33) (s.ireg.toNat + 2))) ∧
      (s.ireg.toNat + 2 ≤ 0xFFF →
        Answers (exec (.ldB x) s) (fun t =>
          (t.readByte s.ireg.toNat).toNat = (s.reg x).toNat / 100 ∧
            (t.readByte (s.ireg.toNat + 1)).toNat = (s.reg x).toNat / 10 % 10 ∧
            (t.readByte (s.ireg.toNat + 2)).toNat = (s.reg x).toNat % 10 ∧
            MemKept (fun a => a < s.ireg.toNat ∨ s.ireg.toNat + 2 < a) s t ∧ t.pc = s.pc + 2 ∧ t.ireg = s.ireg ∧
            RegsKept (fun _ => True) s t ∧ StackKept s t ∧ TimersKept s t ∧ WaitKept s t ∧ ScreenKept s t ∧
            t.inputs = s.inputs))

/-- R124 (that I is unchanged is the spec's decision D11, log entry 11): LD [I] stores V0..Vx at I..I + x, where I + x
is in range; else it faults with I + x, not even the in-range bytes written. -/
def Obligations.StoreRegistersRule : Prop :=
  ∀ (x : Nibble) (s : State), Memory.wf s.mem = true →
    decode (packByte 0xF x 0x55) = some (.stRegs x) ∧
      (0xFFF < s.ireg.toNat + x.toNat →
        exec (.stRegs x) s = .fault (.dataAddress s.pc (packByte 0xF x 0x55) (s.ireg.toNat + x.toNat))) ∧
      (s.ireg.toNat + x.toNat ≤ 0xFFF →
        Answers (exec (.stRegs x) s) (fun t =>
          (∀ r : Nibble, r.toNat ≤ x.toNat → t.readByte (s.ireg.toNat + r.toNat) = s.reg r) ∧
            MemKept (fun a => a < s.ireg.toNat ∨ s.ireg.toNat + x.toNat < a) s t ∧ t.pc = s.pc + 2 ∧ t.ireg = s.ireg ∧
            RegsKept (fun _ => True) s t ∧ StackKept s t ∧ TimersKept s t ∧ WaitKept s t ∧ ScreenKept s t ∧
            t.inputs = s.inputs))

/-- R125 (that I is unchanged is the spec's decision D11, log entry 11): LD Vx,[I] loads V0..Vx from I..I + x, where I +
x is in range; else it faults with I + x. Registers above Vx and I are unchanged. -/
def Obligations.LoadRegistersRule : Prop :=
  ∀ (x : Nibble) (s : State),
    decode (packByte 0xF x 0x65) = some (.ldRegs x) ∧
      (0xFFF < s.ireg.toNat + x.toNat →
        exec (.ldRegs x) s = .fault (.dataAddress s.pc (packByte 0xF x 0x65) (s.ireg.toNat + x.toNat))) ∧
      (s.ireg.toNat + x.toNat ≤ 0xFFF →
        Answers (exec (.ldRegs x) s) (fun t =>
          (∀ r : Nibble, r.toNat ≤ x.toNat → t.reg r = s.readByte (s.ireg.toNat + r.toNat)) ∧
            RegsKept (fun r => x.toNat < r.toNat) s t ∧ t.pc = s.pc + 2 ∧ AllButRegsKept s t ∧ t.inputs = s.inputs))

/-- R125, the round-trip law, read with I unchanged (the spec's decision D11, log entry 11): after `Fx55`, an `Fx65`
with the same `x`, the same I and that memory restores V0..Vx, whatever the registers hold by then. -/
def Obligations.StoreLoadRoundTrip : Prop :=
  ∀ (x : Nibble) (s t u : State), Memory.wf s.mem = true → exec (.stRegs x) s = .next t → u.mem = t.mem →
    u.ireg = s.ireg →
    Answers (exec (.ldRegs x) u) (fun w => ∀ r : Nibble, r.toNat ≤ x.toNat → w.reg r = s.reg r)

/-- R44, R45: only `Fx33` and `Fx55` change memory, and only the bytes they store to; the address is the one their
meaning uses. -/
def Obligations.OnlyStoresChangeMemory : Prop :=
  ∀ (i : Instr) (s t : State) (a : Nat), Memory.wf s.mem = true → exec i s = .next t → t.readByte a ≠ s.readByte a →
    (∃ x, i = .ldB x ∧ dataAddr s 0 ≤ a ∧ a < dataAddr s 3) ∨
      (∃ x, i = .stRegs x ∧ dataAddr s 0 ≤ a ∧ a < dataAddr s (regCount x))

/-! ## Display -/

/-- R140: CLS clears all 2048 cells and leaves VF and everything else. -/
def Obligations.ClearScreenRule : Prop :=
  ∀ s : State,
    decode 0x00E0 = some .cls ∧
      Answers (exec .cls s) (fun t =>
        (∀ row col, t.pixel row col = false) ∧ RegsKept (fun _ => True) s t ∧ t.pc = s.pc + 2 ∧ t.ireg = s.ireg ∧
          StackKept s t ∧ TimersKept s t ∧ WaitKept s t ∧ MemKept (fun _ => True) s t ∧ t.inputs = s.inputs)

/-- R141 (the spec's decisions D5 and D12, log entry 11): a draw whose bytes can be read and whose set bits stay in the
grid toggles exactly the targeted cells, sets VF to 1 where a targeted cell was set and to 0 otherwise, and changes
nothing else. Which bit is which column is the spec's choice from general knowledge (R142, log entry 4). -/
def Obligations.DrawRule : Prop :=
  ∀ (x y n : Nibble) (s : State),
    decode (packNibbles 0xD x y n) = some (.drw x y n) ∧
      (SpriteReadable n s → SpriteInGrid x y n s →
        Answers (exec (.drw x y n) s) (fun t =>
          (∀ row col, t.pixel row col = (s.pixel row col != spriteHits x y n s row col)) ∧
            ((∃ row col, spriteHits x y n s row col = true ∧ s.pixel row col = true) → t.reg 0xF = 1) ∧
            ((∀ row col, spriteHits x y n s row col = true → s.pixel row col = false) → t.reg 0xF = 0) ∧
            RegsKept (· ≠ 0xF) s t ∧ t.pc = s.pc + 2 ∧ t.ireg = s.ireg ∧ StackKept s t ∧ TimersKept s t ∧
            WaitKept s t ∧ MemKept (fun _ => True) s t ∧ t.inputs = s.inputs))

/-- R141, R178 (the spec's decisions D12, D21): where a draw faults: the last sprite byte out of range first, with its
address; then the first set pixel outside the grid, rows outer, columns inner, with its column and row. Which bit is
which column is the spec's choice from general knowledge (R142, D13, log entry 4): of a mirrored block the reported
column would be another. -/
def Obligations.DrawFaults : Prop :=
  ∀ (x y n : Nibble) (s : State),
    (n ≠ 0 → 0xFFF < s.ireg.toNat + n.toNat - 1 →
      exec (.drw x y n) s = .fault (.dataAddress s.pc (packNibbles 0xD x y n) (s.ireg.toNat + n.toNat - 1))) ∧
    (SpriteReadable n s →
      ∀ r c, spriteSet n s r c = true → ¬((s.reg x).toNat + c ≤ 63 ∧ (s.reg y).toNat + r ≤ 31) →
        (∀ r' c', spriteSet n s r' c' = true → r' < r ∨ r' = r ∧ c' < c →
          (s.reg x).toNat + c' ≤ 63 ∧ (s.reg y).toNat + r' ≤ 31) →
        exec (.drw x y n) s =
          .fault (.displayBounds s.pc (packNibbles 0xD x y n) ((s.reg x).toNat + c) ((s.reg y).toNat + r)))

/-- R143 (a), which the spec marks as derived: drawing the same sprite twice at the same coordinates restores the
framebuffer, whatever it held; the second draw sets VF to 1 where a set bit of the sprite hit a clear pixel in the
first, else to 0. The coordinates are not VF, since the first draw changes it. -/
def Obligations.DrawTwiceRestores : Prop :=
  ∀ (x y n : Nibble) (s t : State), x ≠ 0xF → y ≠ 0xF → exec (.drw x y n) s = .next t →
    Answers (exec (.drw x y n) t) (fun u =>
      ScreenKept s u ∧
        ((∃ row col, spriteHits x y n s row col = true ∧ s.pixel row col = false) → u.reg 0xF = 1) ∧
        ((∀ row col, spriteHits x y n s row col = true → s.pixel row col = true) → u.reg 0xF = 0))

/-- R143 (c), which the spec marks as derived: after a draw the set cells are as many as before, plus the set sprite
bits that hit clear cells, minus those that hit set cells. -/
def Obligations.DrawCountsSetCells : Prop :=
  ∀ (x y n : Nibble) (s t : State), exec (.drw x y n) s = .next t →
    countCells (fun row col => t.pixel row col) +
        countCells (fun row col => spriteHits x y n s row col && s.pixel row col) =
      countCells (fun row col => s.pixel row col) +
        countCells (fun row col => spriteHits x y n s row col && !s.pixel row col)

/-- R24, R140: only CLS and DRW change the framebuffer. -/
def Obligations.OnlyClearAndDrawChangeScreen : Prop :=
  ∀ (i : Instr) (s t : State), exec i s = .next t → t.fb ≠ s.fb → i = .cls ∨ ∃ x y n, i = .drw x y n

/-! ## Keypad and timers -/

/-- R150, R151, R156: the key skips sample the level of key `V[x]` once, for `V[x] ≤ 15`; a larger value raises
`KeyIndexFault` (the spec's decision D15). The level is the model's free value (log entry 1): the statement holds
for each of its values. -/
def Obligations.KeySkipRules : Prop :=
  ∀ (x : Nibble) (s : State),
    decode (packByte 0xE x 0x9E) = some (.skp x) ∧ decode (packByte 0xE x 0xA1) = some (.sknp x) ∧
      (15 < (s.reg x).toNat →
        exec (.skp x) s = .fault (.keyIndex s.pc (packByte 0xE x 0x9E) (s.reg x)) ∧
          exec (.sknp x) s = .fault (.keyIndex s.pc (packByte 0xE x 0xA1) (s.reg x))) ∧
      ((s.reg x).toNat ≤ 15 → ∃ held, held = Config.keyHeld s.inputs ((s.reg x).setWidth 4) ∧
        Answers (exec (.skp x) s) (fun t =>
          WrotePc (s.pc + if held = true then 4 else 2) s t ∧ t.inputs = s.inputs + 1) ∧
        Answers (exec (.sknp x) s) (fun t =>
          WrotePc (s.pc + if held = true then 2 else 4) s t ∧ t.inputs = s.inputs + 1))

/-- R153 (the spec's decision D16): LD Vx,K ends its cycle awaiting a key, with PC and the timers as they were; the key
press then writes the key to Vx, advances PC past the instruction, ticks once, and the block runs again. -/
def Obligations.KeyWaitRule : Prop :=
  ∀ (x : Nibble) (s : State),
    decode (packByte 0xF x 0x0A) = some (.ldVxK x) ∧
      Answers (exec (.ldVxK x) s) (fun t =>
        t.rs = .awaitKey ∧ t.kx = x ∧ t.pc = s.pc ∧ RegsKept (fun _ => True) s t ∧ t.ireg = s.ireg ∧ StackKept s t ∧
          TimersKept s t ∧ ScreenKept s t ∧ MemKept (fun _ => True) s t ∧ t.inputs = s.inputs) ∧
      (AtInstr (.ldVxK x) s →
        Answers (step s) (fun t =>
          awaitingInput t = true ∧ t.pc = s.pc ∧ TimersKept s t ∧ (cycle t).outcome = .next t ∧
            ∀ k : Nibble, (keyPress k t).reg x = k.setWidth 8 ∧ RegsKept (· ≠ x) s (keyPress k t) ∧
              (keyPress k t).pc = s.pc + 2 ∧ (keyPress k t).dt.toNat = s.dt.toNat - 1 ∧
              (keyPress k t).st.toNat = s.st.toNat - 1 ∧ (keyPress k t).rs = .run))

/-- R152, R154, R155, R157, R191 (R157 is marked as derived by the spec): the timer moves. At the execute stage: DT to
Vx, Vx to DT, Vx to ST, and nothing else but PC. At the end of the cycle: the tick has acted on the value just
written, and the tone is on where ST is not 0. -/
def Obligations.TimerMoveRules : Prop :=
  ∀ (x : Nibble) (s : State),
    decode (packByte 0xF x 0x07) = some (.ldVxDt x) ∧ decode (packByte 0xF x 0x15) = some (.ldDtVx x) ∧
      decode (packByte 0xF x 0x18) = some (.ldStVx x) ∧
      Answers (exec (.ldVxDt x) s) (WroteReg x s.dt s) ∧
      Answers (exec (.ldDtVx x) s) (fun t => t.dt = s.reg x ∧ t.st = s.st ∧ t.pc = s.pc + 2 ∧
        RegsKept (fun _ => True) s t ∧ t.ireg = s.ireg ∧ StackKept s t ∧ WaitKept s t ∧ ScreenKept s t ∧
        MemKept (fun _ => True) s t ∧ t.inputs = s.inputs) ∧
      Answers (exec (.ldStVx x) s) (fun t => t.st = s.reg x ∧ t.dt = s.dt ∧ t.pc = s.pc + 2 ∧
        RegsKept (fun _ => True) s t ∧ t.ireg = s.ireg ∧ StackKept s t ∧ WaitKept s t ∧ ScreenKept s t ∧
        MemKept (fun _ => True) s t ∧ t.inputs = s.inputs) ∧
      (AtInstr (.ldVxDt x) s → Answers (step s) (fun t => t.reg x = s.dt ∧ t.dt.toNat = s.dt.toNat - 1)) ∧
      (AtInstr (.ldDtVx x) s → Answers (step s) (fun t => t.dt.toNat = (s.reg x).toNat - 1)) ∧
      (AtInstr (.ldStVx x) s → Answers (step s) (fun t =>
        t.st.toNat = (s.reg x).toNat - 1 ∧ (toneActive t = true ↔ 1 < (s.reg x).toNat)))

/-- R157, which the spec marks as derived: a poll with `Fx07` in the very next cycle after `Fx15` wrote N reads N - 1 (0
for N = 0). -/
def Obligations.TimerPollAfterWrite : Prop :=
  ∀ (x y : Nibble) (s t u : State), AtInstr (.ldDtVx x) s → step s = .next t → AtInstr (.ldVxDt y) t →
    step t = .next u → (u.reg y).toNat = (s.reg x).toNat - 1

/-! ## The whole machine -/

/-- R17 (the spec's decisions D4, D9 and D16; a key level is log entry 1): how each instruction leaves PC, complete. -/
def Obligations.PcAfterEachInstruction : Prop :=
  ∀ (i : Instr) (s t : State), exec i s = .next t →
    match i with
    | .ret => ∃ k : Fin 16, s.sp.val = k.val + 1 ∧ t.pc = s.stack[k.val]
    | .jp nnn | .call nnn => t.pc.toNat = nnn.toNat
    | .jpV0 nnn => t.pc.toNat = nnn.toNat + (s.reg 0).toNat
    | .seImm x kk => t.pc = s.pc + if s.reg x = kk then 4 else 2
    | .sneImm x kk => t.pc = s.pc + if s.reg x ≠ kk then 4 else 2
    | .seReg x y => t.pc = s.pc + if s.reg x = s.reg y then 4 else 2
    | .sneReg x y => t.pc = s.pc + if s.reg x ≠ s.reg y then 4 else 2
    | .skp x => t.pc = s.pc + if Config.keyHeld s.inputs ((s.reg x).setWidth 4) = true then 4 else 2
    | .sknp x => t.pc = s.pc + if Config.keyHeld s.inputs ((s.reg x).setWidth 4) = true then 2 else 4
    | .ldVxK _ => t.pc = s.pc
    | _ => t.pc = s.pc + 2

/-- R18 (the spec's decision D8): no instruction leaves PC odd, from a state whose PC and live stack entries are even. -/
def Obligations.PcStaysEven : Prop :=
  ∀ (i : Instr) (s t : State), s.pc.toNat % 2 = 0 →
    (∀ k : Fin 16, k.val < s.sp.val → s.stack[k.val].toNat % 2 = 0) → exec i s = .next t →
    t.pc.toNat % 2 = 0 ∧ ∀ k : Fin 16, k.val < t.sp.val → t.stack[k.val].toNat % 2 = 0

/-- R20 (the spec's decisions D4 and D27): only CALL and RET change SP or the stack, and RET no entry. -/
def Obligations.OnlyCallAndRetChangeStack : Prop :=
  ∀ (i : Instr) (s t : State), exec i s = .next t →
    (t.stack ≠ s.stack → ∃ nnn, i = .call nnn) ∧ (t.sp ≠ s.sp → i = .ret ∨ ∃ nnn, i = .call nnn)

/-- Every instruction of the table runs or faults, and none is refused: which instructions can raise which fault (R175;
the codes and the faults the spec adds are its decisions D7, D8, D12 and D15). -/
def Obligations.FaultsByInstruction : Prop :=
  ∀ (i : Instr) (s : State),
    (∃ t, exec i s = .next t) ∨ ∃ f, exec i s = .fault f ∧
      match faultCode f with
      | 1 => ∃ nnn, i = .call nnn
      | 2 => i = .ret
      | 4 => (∃ x y n, i = .drw x y n ∧ n ≠ 0) ∨ ∃ x, i = .ldB x ∨ i = .stRegs x ∨ i = .ldRegs x
      | 5 => ∃ x y n, i = .drw x y n
      | 6 => ∃ nnn, i = .jp nnn ∨ i = .call nnn ∨ i = .jpV0 nnn
      | 7 => ∃ x, i = .skp x ∨ i = .sknp x
      | _ => False

/-- R175 (the spec's decision D7): a step that faults names PC and the fetched word in its event; the word is absent
exactly for code 3, where nothing was fetched; the block was running. -/
def Obligations.FaultEventNamesPcAndWord : Prop :=
  ∀ (s : State) (f : Fault), step s = .fault f →
    s.rs = .run ∧ faultPc f = s.pc ∧ faultOp f = s.fetch ∧ (faultCode f = 3 ↔ s.fetch = none)

/-- R21, R26 (c): no instruction reads ST. Another value `b` in ST before an instruction changes nothing after it but
ST, and where the instruction writes ST not even that. Both runs see the same inputs, since the model takes an input
from the count of those sampled (log entry 1): for RND, SKP and SKNP the statement is about equal inputs. -/
def Obligations.SoundTimerIsNotRead : Prop :=
  ∀ (i : Instr) (s : State) (b : Byte),
    faultOf (exec i (s.setSt b)) = faultOf (exec i s) ∧
      (nextOf (exec i (s.setSt b))).map (fun t => t.setSt 0) = (nextOf (exec i s)).map (fun t => t.setSt 0) ∧
      (∀ x, i = .ldStVx x → exec i (s.setSt b) = exec i s)

/-- R24, R26 (d): no instruction but DRW depends on the framebuffer. Both runs see the same inputs, since the model
takes an input from the count of those sampled (log entry 1): for RND, SKP and SKNP the statement is about equal
inputs. -/
def Obligations.ScreenIsSeenOnlyByDraw : Prop :=
  ∀ (i : Instr) (s : State) (fb : Framebuffer), (∀ x y n, i ≠ .drw x y n) →
    faultOf (exec i (s.setFb fb)) = faultOf (exec i s) ∧
      (nextOf (exec i (s.setFb fb))).map (fun t => t.setFb s.fb) = (nextOf (exec i s)).map (fun t => t.setFb s.fb)

/-- R190 (the spec's decision D28): the default keyboard mapping is a bidirectional table of the 16 logical keys; a key
outside it reaches the block as nothing. -/
def Obligations.KeyboardMapping : Prop :=
  (∀ k : Nibble, ∃ c, externalKey k = some c ∧ logicalKey c = some k) ∧
    (∀ (c : Char) (k : Nibble), logicalKey c = some k → externalKey k = some c) ∧
    ∀ (c : Char) (s : State), logicalKey c = none → pressExternal c s = s
end

