-- ==== Sys2Proof/Laws/Memory.lean ====
section
/-!
SUPPORT. The laws of memory: a read after a write, a write elsewhere, several bytes, and the canonical form.
-/
namespace Sys2Proof.Machine

@[simp] theorem Memory.read_nil (a : Nat) : Memory.read [] a = initialByte a := rfl

theorem Memory.read_of_below {lo : Nat} {m : Memory} (h : Memory.wfFrom lo m = true) {a : Nat} (ha : a < lo) :
    m.read a = initialByte a := by
  induction m generalizing lo with
  | nil => rfl
  | cons e m ih =>
    obtain ⟨k, b⟩ := e
    simp only [Memory.wfFrom, Bool.and_eq_true, decide_eq_true_eq] at h
    simp only [Memory.read]
    rw [if_neg (by omega)]
    exact ih h.2 (by omega)

theorem Memory.wfFrom_mono {lo lo' : Nat} {m : Memory} (h : Memory.wfFrom lo m = true) (hl : lo' ≤ lo) :
    Memory.wfFrom lo' m = true := by
  cases m with
  | nil => rfl
  | cons e m =>
    simp only [Memory.wfFrom, Bool.and_eq_true, decide_eq_true_eq] at h ⊢
    exact ⟨⟨⟨by omega, h.1.1.2⟩, h.1.2⟩, h.2⟩

theorem Memory.read_cons (a : Nat) (b : Byte) (m : Memory) (h : Memory.wfFrom (a + 1) m = true) (c : Nat) :
    (Memory.cons a b m).read c = if c = a then b else m.read c := by
  unfold Memory.cons
  split
  · next hb =>
    split
    · next hc => subst hc; rw [hb, Memory.read_of_below h (by omega)]
    · rfl
  · simp only [Memory.read]
    by_cases hc : a = c
    · simp [hc]
    · simp [hc, Ne.symm hc]

theorem Memory.wfFrom_cons {lo a : Nat} {b : Byte} {m : Memory} (hlo : lo ≤ a) (ha : a ≤ 0xFFF)
    (h : Memory.wfFrom (a + 1) m = true) : Memory.wfFrom lo (Memory.cons a b m) = true := by
  unfold Memory.cons
  split
  · exact Memory.wfFrom_mono h (by omega)
  · next hb => simp [Memory.wfFrom, Config.addrMax, hlo, ha, hb, h]

/-- A read after a write: the written byte at the written address, the old byte anywhere else. -/
theorem Memory.read_write_from {lo : Nat} {m : Memory} (h : Memory.wfFrom lo m = true) (a : Nat) (b : Byte) (c : Nat) :
    (m.write a b).read c = if c = a then b else m.read c := by
  induction m generalizing lo with
  | nil => exact Memory.read_cons a b [] rfl c
  | cons e m ih =>
    obtain ⟨k, v⟩ := e
    have h' := h
    simp only [Memory.wfFrom, Bool.and_eq_true, decide_eq_true_eq] at h
    simp only [Memory.write]
    split
    · next hk =>
      refine Memory.read_cons a b _ ?_ c
      simp only [Memory.wfFrom, Bool.and_eq_true, decide_eq_true_eq]
      exact ⟨⟨⟨by omega, h.1.1.2⟩, h.1.2⟩, h.2⟩
    · split
      · next hk hak =>
        subst hak
        rw [Memory.read_cons a b m h.2 c]
        simp only [Memory.read]
        split
        · rfl
        · next hc => rw [if_neg (by omega)]
      · next hk hak =>
        simp only [Memory.read]
        by_cases hkc : k = c
        · subst hkc; simp [Ne.symm hak]
        · simp only [hkc, if_false]; exact ih h.2

theorem Memory.wfFrom_write {lo : Nat} {m : Memory} (h : Memory.wfFrom lo m = true) {a : Nat} (hlo : lo ≤ a)
    (ha : a ≤ 0xFFF) (b : Byte) : Memory.wfFrom lo (m.write a b) = true := by
  induction m generalizing lo with
  | nil => exact Memory.wfFrom_cons hlo ha rfl
  | cons e m ih =>
    obtain ⟨k, v⟩ := e
    simp only [Memory.wfFrom, Bool.and_eq_true, decide_eq_true_eq] at h
    simp only [Memory.write]
    split
    · next hk =>
      refine Memory.wfFrom_cons hlo ha ?_
      simp only [Memory.wfFrom, Bool.and_eq_true, decide_eq_true_eq]
      exact ⟨⟨⟨by omega, h.1.1.2⟩, h.1.2⟩, h.2⟩
    · split
      · next hk hak => subst hak; exact Memory.wfFrom_cons hlo ha h.2
      · next hk hak =>
        simp only [Memory.wfFrom, Bool.and_eq_true, decide_eq_true_eq]
        exact ⟨h.1, ih h.2 (by omega)⟩

theorem Memory.read_write {m : Memory} (h : m.wf = true) (a : Nat) (b : Byte) (c : Nat) :
    (m.write a b).read c = if c = a then b else m.read c := Memory.read_write_from h a b c

/-- Every memory operation keeps the canonical form: one byte. -/
theorem Memory.wf_write {m : Memory} (h : m.wf = true) {a : Nat} (ha : a ≤ 0xFFF) (b : Byte) : (m.write a b).wf = true :=
  Memory.wfFrom_write h (by omega) ha b

/-- Every memory operation keeps the canonical form: several bytes. -/
theorem Memory.wf_writeBytes {m : Memory} (h : m.wf = true) {a : Nat} (bs : List Byte) (ha : a + bs.length ≤ 0x1000) :
    (m.writeBytes a bs).wf = true := by
  induction bs generalizing m a with
  | nil => exact h
  | cons b bs ih =>
    simp only [List.length_cons] at ha
    exact ih (Memory.wf_write h (by omega) b) (by omega)

/-- Several bytes written: the address `a + j` reads as byte `j`, any other address as before. -/
theorem Memory.read_writeBytes {m : Memory} (h : m.wf = true) {a : Nat} (bs : List Byte) (ha : a + bs.length ≤ 0x1000)
    (c : Nat) :
    (m.writeBytes a bs).read c = if a ≤ c ∧ c < a + bs.length then bs.getD (c - a) 0 else m.read c := by
  induction bs generalizing m a with
  | nil => simp only [Memory.writeBytes, List.length_nil]; rw [if_neg (by omega)]
  | cons b bs ih =>
    simp only [List.length_cons] at ha ⊢
    have hw := Memory.wf_write h (a := a) (by omega) b
    simp only [Memory.writeBytes]
    rw [ih hw (by omega), Memory.read_write h]
    by_cases hca : c = a
    · subst hca
      rw [if_neg (by omega), if_pos rfl, if_pos (by omega)]; simp
    · by_cases hr : a + 1 ≤ c ∧ c < a + 1 + bs.length
      · rw [if_pos hr, if_pos (by omega)]
        obtain ⟨j, hj⟩ : ∃ j, c - a = j + 1 := ⟨c - a - 1, by omega⟩
        rw [hj, List.getD_cons_succ]
        congr 1; omega
      · rw [if_neg hr, if_neg hca, if_neg (by omega)]

/-- Two canonical memories with equal reads are equal lists. -/
theorem Memory.ext_from {lo : Nat} {m m' : Memory} (h : Memory.wfFrom lo m = true) (h' : Memory.wfFrom lo m' = true)
    (hr : ∀ a, m.read a = m'.read a) : m = m' := by
  have hd : ∀ {lo k : Nat} {b : Byte} {m : Memory}, Memory.wfFrom lo ((k, b) :: m) = true →
      b ≠ initialByte k ∧ Memory.wfFrom (k + 1) m = true := by
    intro lo k b m h
    simp only [Memory.wfFrom, Bool.and_eq_true, decide_eq_true_eq, bne_iff_ne] at h
    exact ⟨h.1.2, h.2⟩
  induction m generalizing lo m' with
  | nil =>
    cases m' with
    | nil => rfl
    | cons e m' =>
      have := hr e.1
      simp only [Memory.read, if_true] at this
      exact absurd this.symm (hd h').1
  | cons e m ih =>
    obtain ⟨k, b⟩ := e
    cases m' with
    | nil =>
      have := hr k
      simp only [Memory.read, if_true] at this
      exact absurd this (hd h).1
    | cons e' m' =>
      obtain ⟨k', b'⟩ := e'
      have hk : k = k' := by
        rcases Nat.lt_trichotomy k k' with hlt | he | hgt
        · have := hr k
          simp only [Memory.read, if_true] at this
          rw [if_neg (by omega), Memory.read_of_below (hd h').2 (by omega)] at this
          exact absurd this (hd h).1
        · exact he
        · have := hr k'
          simp only [Memory.read, if_true] at this
          rw [if_neg (by omega), Memory.read_of_below (hd h).2 (by omega)] at this
          exact absurd this.symm (hd h').1
      subst hk
      have hb : b = b' := by simpa [Memory.read] using hr k
      subst hb
      congr 1
      refine ih (hd h).2 (hd h').2 fun a => ?_
      by_cases ha : a = k
      · subst ha
        rw [Memory.read_of_below (hd h).2 (by omega), Memory.read_of_below (hd h').2 (by omega)]
      · simpa [Memory.read, Ne.symm ha] using hr a

@[simp] theorem Memory.readBytes_length (m : Memory) (a n : Nat) : (m.readBytes a n).length = n := by
  induction n generalizing a with
  | zero => rfl
  | succ n ih => simp [Memory.readBytes, ih]

theorem Memory.readBytes_getElem? (m : Memory) (a n r : Nat) :
    (m.readBytes a n)[r]? = if r < n then some (m.read (a + r)) else none := by
  induction n generalizing a r with
  | zero => simp [Memory.readBytes]
  | succ n ih =>
    cases r with
    | zero => simp [Memory.readBytes]
    | succ r => simp [Memory.readBytes, ih, Nat.add_assoc, Nat.add_comm 1]

end Sys2Proof.Machine
end

