-- ==== Sys2Proof/Laws/State.lean ====
section
/-!
SUPPORT. What each update does to each field of State, one lemma each, true by rfl.
-/
namespace Sys2Proof.Machine

variable (s : State)

@[simp] theorem State.setReg_v (x : Nibble) (b : Byte) : (s.setReg x b).v = s.v.set x.toNat b x.isLt := rfl
@[simp] theorem State.setReg_ireg (x : Nibble) (b : Byte) : (s.setReg x b).ireg = s.ireg := rfl
@[simp] theorem State.setReg_pc (x : Nibble) (b : Byte) : (s.setReg x b).pc = s.pc := rfl
@[simp] theorem State.setReg_sp (x : Nibble) (b : Byte) : (s.setReg x b).sp = s.sp := rfl
@[simp] theorem State.setReg_stack (x : Nibble) (b : Byte) : (s.setReg x b).stack = s.stack := rfl
@[simp] theorem State.setReg_dt (x : Nibble) (b : Byte) : (s.setReg x b).dt = s.dt := rfl
@[simp] theorem State.setReg_st (x : Nibble) (b : Byte) : (s.setReg x b).st = s.st := rfl
@[simp] theorem State.setReg_mem (x : Nibble) (b : Byte) : (s.setReg x b).mem = s.mem := rfl
@[simp] theorem State.setReg_fb (x : Nibble) (b : Byte) : (s.setReg x b).fb = s.fb := rfl
@[simp] theorem State.setReg_rs (x : Nibble) (b : Byte) : (s.setReg x b).rs = s.rs := rfl
@[simp] theorem State.setReg_kx (x : Nibble) (b : Byte) : (s.setReg x b).kx = s.kx := rfl
@[simp] theorem State.setReg_inputs (x : Nibble) (b : Byte) : (s.setReg x b).inputs = s.inputs := rfl

@[simp] theorem State.setIreg_v (w : Word) : (s.setIreg w).v = s.v := rfl
@[simp] theorem State.setIreg_ireg (w : Word) : (s.setIreg w).ireg = w := rfl
@[simp] theorem State.setIreg_pc (w : Word) : (s.setIreg w).pc = s.pc := rfl
@[simp] theorem State.setIreg_sp (w : Word) : (s.setIreg w).sp = s.sp := rfl
@[simp] theorem State.setIreg_stack (w : Word) : (s.setIreg w).stack = s.stack := rfl
@[simp] theorem State.setIreg_dt (w : Word) : (s.setIreg w).dt = s.dt := rfl
@[simp] theorem State.setIreg_st (w : Word) : (s.setIreg w).st = s.st := rfl
@[simp] theorem State.setIreg_mem (w : Word) : (s.setIreg w).mem = s.mem := rfl
@[simp] theorem State.setIreg_fb (w : Word) : (s.setIreg w).fb = s.fb := rfl
@[simp] theorem State.setIreg_rs (w : Word) : (s.setIreg w).rs = s.rs := rfl
@[simp] theorem State.setIreg_kx (w : Word) : (s.setIreg w).kx = s.kx := rfl
@[simp] theorem State.setIreg_inputs (w : Word) : (s.setIreg w).inputs = s.inputs := rfl

@[simp] theorem State.setPc_v (w : Word) : (s.setPc w).v = s.v := rfl
@[simp] theorem State.setPc_ireg (w : Word) : (s.setPc w).ireg = s.ireg := rfl
@[simp] theorem State.setPc_pc (w : Word) : (s.setPc w).pc = w := rfl
@[simp] theorem State.setPc_sp (w : Word) : (s.setPc w).sp = s.sp := rfl
@[simp] theorem State.setPc_stack (w : Word) : (s.setPc w).stack = s.stack := rfl
@[simp] theorem State.setPc_dt (w : Word) : (s.setPc w).dt = s.dt := rfl
@[simp] theorem State.setPc_st (w : Word) : (s.setPc w).st = s.st := rfl
@[simp] theorem State.setPc_mem (w : Word) : (s.setPc w).mem = s.mem := rfl
@[simp] theorem State.setPc_fb (w : Word) : (s.setPc w).fb = s.fb := rfl
@[simp] theorem State.setPc_rs (w : Word) : (s.setPc w).rs = s.rs := rfl
@[simp] theorem State.setPc_kx (w : Word) : (s.setPc w).kx = s.kx := rfl
@[simp] theorem State.setPc_inputs (w : Word) : (s.setPc w).inputs = s.inputs := rfl

@[simp] theorem State.setDt_v (b : Byte) : (s.setDt b).v = s.v := rfl
@[simp] theorem State.setDt_ireg (b : Byte) : (s.setDt b).ireg = s.ireg := rfl
@[simp] theorem State.setDt_pc (b : Byte) : (s.setDt b).pc = s.pc := rfl
@[simp] theorem State.setDt_sp (b : Byte) : (s.setDt b).sp = s.sp := rfl
@[simp] theorem State.setDt_stack (b : Byte) : (s.setDt b).stack = s.stack := rfl
@[simp] theorem State.setDt_dt (b : Byte) : (s.setDt b).dt = b := rfl
@[simp] theorem State.setDt_st (b : Byte) : (s.setDt b).st = s.st := rfl
@[simp] theorem State.setDt_mem (b : Byte) : (s.setDt b).mem = s.mem := rfl
@[simp] theorem State.setDt_fb (b : Byte) : (s.setDt b).fb = s.fb := rfl
@[simp] theorem State.setDt_rs (b : Byte) : (s.setDt b).rs = s.rs := rfl
@[simp] theorem State.setDt_kx (b : Byte) : (s.setDt b).kx = s.kx := rfl
@[simp] theorem State.setDt_inputs (b : Byte) : (s.setDt b).inputs = s.inputs := rfl

@[simp] theorem State.setSt_v (b : Byte) : (s.setSt b).v = s.v := rfl
@[simp] theorem State.setSt_ireg (b : Byte) : (s.setSt b).ireg = s.ireg := rfl
@[simp] theorem State.setSt_pc (b : Byte) : (s.setSt b).pc = s.pc := rfl
@[simp] theorem State.setSt_sp (b : Byte) : (s.setSt b).sp = s.sp := rfl
@[simp] theorem State.setSt_stack (b : Byte) : (s.setSt b).stack = s.stack := rfl
@[simp] theorem State.setSt_dt (b : Byte) : (s.setSt b).dt = s.dt := rfl
@[simp] theorem State.setSt_st (b : Byte) : (s.setSt b).st = b := rfl
@[simp] theorem State.setSt_mem (b : Byte) : (s.setSt b).mem = s.mem := rfl
@[simp] theorem State.setSt_fb (b : Byte) : (s.setSt b).fb = s.fb := rfl
@[simp] theorem State.setSt_rs (b : Byte) : (s.setSt b).rs = s.rs := rfl
@[simp] theorem State.setSt_kx (b : Byte) : (s.setSt b).kx = s.kx := rfl
@[simp] theorem State.setSt_inputs (b : Byte) : (s.setSt b).inputs = s.inputs := rfl

@[simp] theorem State.advance_v : (s.advance).v = s.v := rfl
@[simp] theorem State.advance_ireg : (s.advance).ireg = s.ireg := rfl
@[simp] theorem State.advance_pc : (s.advance).pc = s.pc + 2 := rfl
@[simp] theorem State.advance_sp : (s.advance).sp = s.sp := rfl
@[simp] theorem State.advance_stack : (s.advance).stack = s.stack := rfl
@[simp] theorem State.advance_dt : (s.advance).dt = s.dt := rfl
@[simp] theorem State.advance_st : (s.advance).st = s.st := rfl
@[simp] theorem State.advance_mem : (s.advance).mem = s.mem := rfl
@[simp] theorem State.advance_fb : (s.advance).fb = s.fb := rfl
@[simp] theorem State.advance_rs : (s.advance).rs = s.rs := rfl
@[simp] theorem State.advance_kx : (s.advance).kx = s.kx := rfl
@[simp] theorem State.advance_inputs : (s.advance).inputs = s.inputs := rfl

@[simp] theorem State.skipIf_v (c : Bool) : (s.skipIf c).v = s.v := rfl
@[simp] theorem State.skipIf_ireg (c : Bool) : (s.skipIf c).ireg = s.ireg := rfl
@[simp] theorem State.skipIf_pc (c : Bool) : (s.skipIf c).pc = s.pc + if c then 4 else 2 := rfl
@[simp] theorem State.skipIf_sp (c : Bool) : (s.skipIf c).sp = s.sp := rfl
@[simp] theorem State.skipIf_stack (c : Bool) : (s.skipIf c).stack = s.stack := rfl
@[simp] theorem State.skipIf_dt (c : Bool) : (s.skipIf c).dt = s.dt := rfl
@[simp] theorem State.skipIf_st (c : Bool) : (s.skipIf c).st = s.st := rfl
@[simp] theorem State.skipIf_mem (c : Bool) : (s.skipIf c).mem = s.mem := rfl
@[simp] theorem State.skipIf_fb (c : Bool) : (s.skipIf c).fb = s.fb := rfl
@[simp] theorem State.skipIf_rs (c : Bool) : (s.skipIf c).rs = s.rs := rfl
@[simp] theorem State.skipIf_kx (c : Bool) : (s.skipIf c).kx = s.kx := rfl
@[simp] theorem State.skipIf_inputs (c : Bool) : (s.skipIf c).inputs = s.inputs := rfl

@[simp] theorem State.pop_v : (s.pop).v = s.v := rfl
@[simp] theorem State.pop_ireg : (s.pop).ireg = s.ireg := rfl
@[simp] theorem State.pop_pc : (s.pop).pc = s.pc := rfl
@[simp] theorem State.pop_sp : (s.pop).sp = ⟨s.sp.val - 1, by have := s.sp.isLt; omega⟩ := rfl
@[simp] theorem State.pop_stack : (s.pop).stack = s.stack := rfl
@[simp] theorem State.pop_dt : (s.pop).dt = s.dt := rfl
@[simp] theorem State.pop_st : (s.pop).st = s.st := rfl
@[simp] theorem State.pop_mem : (s.pop).mem = s.mem := rfl
@[simp] theorem State.pop_fb : (s.pop).fb = s.fb := rfl
@[simp] theorem State.pop_rs : (s.pop).rs = s.rs := rfl
@[simp] theorem State.pop_kx : (s.pop).kx = s.kx := rfl
@[simp] theorem State.pop_inputs : (s.pop).inputs = s.inputs := rfl

@[simp] theorem State.store_v (a : Nat) (bs : List Byte) : (s.store a bs).v = s.v := rfl
@[simp] theorem State.store_ireg (a : Nat) (bs : List Byte) : (s.store a bs).ireg = s.ireg := rfl
@[simp] theorem State.store_pc (a : Nat) (bs : List Byte) : (s.store a bs).pc = s.pc := rfl
@[simp] theorem State.store_sp (a : Nat) (bs : List Byte) : (s.store a bs).sp = s.sp := rfl
@[simp] theorem State.store_stack (a : Nat) (bs : List Byte) : (s.store a bs).stack = s.stack := rfl
@[simp] theorem State.store_dt (a : Nat) (bs : List Byte) : (s.store a bs).dt = s.dt := rfl
@[simp] theorem State.store_st (a : Nat) (bs : List Byte) : (s.store a bs).st = s.st := rfl
@[simp] theorem State.store_mem (a : Nat) (bs : List Byte) : (s.store a bs).mem = s.mem.writeBytes a bs := rfl
@[simp] theorem State.store_fb (a : Nat) (bs : List Byte) : (s.store a bs).fb = s.fb := rfl
@[simp] theorem State.store_rs (a : Nat) (bs : List Byte) : (s.store a bs).rs = s.rs := rfl
@[simp] theorem State.store_kx (a : Nat) (bs : List Byte) : (s.store a bs).kx = s.kx := rfl
@[simp] theorem State.store_inputs (a : Nat) (bs : List Byte) : (s.store a bs).inputs = s.inputs := rfl

@[simp] theorem State.tick_v : (s.tick).v = s.v := rfl
@[simp] theorem State.tick_ireg : (s.tick).ireg = s.ireg := rfl
@[simp] theorem State.tick_pc : (s.tick).pc = s.pc := rfl
@[simp] theorem State.tick_sp : (s.tick).sp = s.sp := rfl
@[simp] theorem State.tick_stack : (s.tick).stack = s.stack := rfl
@[simp] theorem State.tick_dt : (s.tick).dt = countDown s.dt := rfl
@[simp] theorem State.tick_st : (s.tick).st = countDown s.st := rfl
@[simp] theorem State.tick_mem : (s.tick).mem = s.mem := rfl
@[simp] theorem State.tick_fb : (s.tick).fb = s.fb := rfl
@[simp] theorem State.tick_rs : (s.tick).rs = s.rs := rfl
@[simp] theorem State.tick_kx : (s.tick).kx = s.kx := rfl
@[simp] theorem State.tick_inputs : (s.tick).inputs = s.inputs := rfl

@[simp] theorem State.setFb_v (fb : Framebuffer) : (s.setFb fb).v = s.v := rfl
@[simp] theorem State.setFb_ireg (fb : Framebuffer) : (s.setFb fb).ireg = s.ireg := rfl
@[simp] theorem State.setFb_pc (fb : Framebuffer) : (s.setFb fb).pc = s.pc := rfl
@[simp] theorem State.setFb_sp (fb : Framebuffer) : (s.setFb fb).sp = s.sp := rfl
@[simp] theorem State.setFb_stack (fb : Framebuffer) : (s.setFb fb).stack = s.stack := rfl
@[simp] theorem State.setFb_dt (fb : Framebuffer) : (s.setFb fb).dt = s.dt := rfl
@[simp] theorem State.setFb_st (fb : Framebuffer) : (s.setFb fb).st = s.st := rfl
@[simp] theorem State.setFb_mem (fb : Framebuffer) : (s.setFb fb).mem = s.mem := rfl
@[simp] theorem State.setFb_fb (fb : Framebuffer) : (s.setFb fb).fb = fb := rfl
@[simp] theorem State.setFb_rs (fb : Framebuffer) : (s.setFb fb).rs = s.rs := rfl
@[simp] theorem State.setFb_kx (fb : Framebuffer) : (s.setFb fb).kx = s.kx := rfl
@[simp] theorem State.setFb_inputs (fb : Framebuffer) : (s.setFb fb).inputs = s.inputs := rfl

@[simp] theorem State.beginWait_v (x : Nibble) : (s.beginWait x).v = s.v := rfl
@[simp] theorem State.beginWait_ireg (x : Nibble) : (s.beginWait x).ireg = s.ireg := rfl
@[simp] theorem State.beginWait_pc (x : Nibble) : (s.beginWait x).pc = s.pc := rfl
@[simp] theorem State.beginWait_sp (x : Nibble) : (s.beginWait x).sp = s.sp := rfl
@[simp] theorem State.beginWait_stack (x : Nibble) : (s.beginWait x).stack = s.stack := rfl
@[simp] theorem State.beginWait_dt (x : Nibble) : (s.beginWait x).dt = s.dt := rfl
@[simp] theorem State.beginWait_st (x : Nibble) : (s.beginWait x).st = s.st := rfl
@[simp] theorem State.beginWait_mem (x : Nibble) : (s.beginWait x).mem = s.mem := rfl
@[simp] theorem State.beginWait_fb (x : Nibble) : (s.beginWait x).fb = s.fb := rfl
@[simp] theorem State.beginWait_rs (x : Nibble) : (s.beginWait x).rs = .awaitKey := rfl
@[simp] theorem State.beginWait_kx (x : Nibble) : (s.beginWait x).kx = x := rfl
@[simp] theorem State.beginWait_inputs (x : Nibble) : (s.beginWait x).inputs = s.inputs := rfl

@[simp] theorem State.endWait_v : (s.endWait).v = s.v := rfl
@[simp] theorem State.endWait_ireg : (s.endWait).ireg = s.ireg := rfl
@[simp] theorem State.endWait_pc : (s.endWait).pc = s.pc := rfl
@[simp] theorem State.endWait_sp : (s.endWait).sp = s.sp := rfl
@[simp] theorem State.endWait_stack : (s.endWait).stack = s.stack := rfl
@[simp] theorem State.endWait_dt : (s.endWait).dt = s.dt := rfl
@[simp] theorem State.endWait_st : (s.endWait).st = s.st := rfl
@[simp] theorem State.endWait_mem : (s.endWait).mem = s.mem := rfl
@[simp] theorem State.endWait_fb : (s.endWait).fb = s.fb := rfl
@[simp] theorem State.endWait_rs : (s.endWait).rs = .run := rfl
@[simp] theorem State.endWait_kx : (s.endWait).kx = s.kx := rfl
@[simp] theorem State.endWait_inputs : (s.endWait).inputs = s.inputs := rfl

@[simp] theorem State.sample_v : (s.sample).v = s.v := rfl
@[simp] theorem State.sample_ireg : (s.sample).ireg = s.ireg := rfl
@[simp] theorem State.sample_pc : (s.sample).pc = s.pc := rfl
@[simp] theorem State.sample_sp : (s.sample).sp = s.sp := rfl
@[simp] theorem State.sample_stack : (s.sample).stack = s.stack := rfl
@[simp] theorem State.sample_dt : (s.sample).dt = s.dt := rfl
@[simp] theorem State.sample_st : (s.sample).st = s.st := rfl
@[simp] theorem State.sample_mem : (s.sample).mem = s.mem := rfl
@[simp] theorem State.sample_fb : (s.sample).fb = s.fb := rfl
@[simp] theorem State.sample_rs : (s.sample).rs = s.rs := rfl
@[simp] theorem State.sample_kx : (s.sample).kx = s.kx := rfl
@[simp] theorem State.sample_inputs : (s.sample).inputs = s.inputs + 1 := rfl

@[simp] theorem State.setFlag_v (c : Bool) : (s.setFlag c).v = s.v.set vf.toNat (flagByte c) vf.isLt := rfl
@[simp] theorem State.setFlag_ireg (c : Bool) : (s.setFlag c).ireg = s.ireg := rfl
@[simp] theorem State.setFlag_pc (c : Bool) : (s.setFlag c).pc = s.pc := rfl
@[simp] theorem State.setFlag_sp (c : Bool) : (s.setFlag c).sp = s.sp := rfl
@[simp] theorem State.setFlag_stack (c : Bool) : (s.setFlag c).stack = s.stack := rfl
@[simp] theorem State.setFlag_dt (c : Bool) : (s.setFlag c).dt = s.dt := rfl
@[simp] theorem State.setFlag_st (c : Bool) : (s.setFlag c).st = s.st := rfl
@[simp] theorem State.setFlag_mem (c : Bool) : (s.setFlag c).mem = s.mem := rfl
@[simp] theorem State.setFlag_fb (c : Bool) : (s.setFlag c).fb = s.fb := rfl
@[simp] theorem State.setFlag_rs (c : Bool) : (s.setFlag c).rs = s.rs := rfl
@[simp] theorem State.setFlag_kx (c : Bool) : (s.setFlag c).kx = s.kx := rfl
@[simp] theorem State.setFlag_inputs (c : Bool) : (s.setFlag c).inputs = s.inputs := rfl

/-! `push` leaves every field but the stack and SP. -/

@[simp] theorem State.push_v (w : Word) : (s.push w).v = s.v := by unfold State.push; split <;> rfl
@[simp] theorem State.push_ireg (w : Word) : (s.push w).ireg = s.ireg := by unfold State.push; split <;> rfl
@[simp] theorem State.push_pc (w : Word) : (s.push w).pc = s.pc := by unfold State.push; split <;> rfl
@[simp] theorem State.push_dt (w : Word) : (s.push w).dt = s.dt := by unfold State.push; split <;> rfl
@[simp] theorem State.push_st (w : Word) : (s.push w).st = s.st := by unfold State.push; split <;> rfl
@[simp] theorem State.push_mem (w : Word) : (s.push w).mem = s.mem := by unfold State.push; split <;> rfl
@[simp] theorem State.push_fb (w : Word) : (s.push w).fb = s.fb := by unfold State.push; split <;> rfl
@[simp] theorem State.push_rs (w : Word) : (s.push w).rs = s.rs := by unfold State.push; split <;> rfl
@[simp] theorem State.push_kx (w : Word) : (s.push w).kx = s.kx := by unfold State.push; split <;> rfl
@[simp] theorem State.push_inputs (w : Word) : (s.push w).inputs = s.inputs := by unfold State.push; split <;> rfl

/-! `loadRegs` leaves every field but the registers. -/

@[simp] theorem State.loadRegs_ireg (a n : Nat) : (s.loadRegs a n).ireg = s.ireg := by
  induction n with
  | zero => rfl
  | succ n ih => exact ih
@[simp] theorem State.loadRegs_pc (a n : Nat) : (s.loadRegs a n).pc = s.pc := by
  induction n with
  | zero => rfl
  | succ n ih => exact ih
@[simp] theorem State.loadRegs_sp (a n : Nat) : (s.loadRegs a n).sp = s.sp := by
  induction n with
  | zero => rfl
  | succ n ih => exact ih
@[simp] theorem State.loadRegs_stack (a n : Nat) : (s.loadRegs a n).stack = s.stack := by
  induction n with
  | zero => rfl
  | succ n ih => exact ih
@[simp] theorem State.loadRegs_dt (a n : Nat) : (s.loadRegs a n).dt = s.dt := by
  induction n with
  | zero => rfl
  | succ n ih => exact ih
@[simp] theorem State.loadRegs_st (a n : Nat) : (s.loadRegs a n).st = s.st := by
  induction n with
  | zero => rfl
  | succ n ih => exact ih
@[simp] theorem State.loadRegs_mem (a n : Nat) : (s.loadRegs a n).mem = s.mem := by
  induction n with
  | zero => rfl
  | succ n ih => exact ih
@[simp] theorem State.loadRegs_fb (a n : Nat) : (s.loadRegs a n).fb = s.fb := by
  induction n with
  | zero => rfl
  | succ n ih => exact ih
@[simp] theorem State.loadRegs_rs (a n : Nat) : (s.loadRegs a n).rs = s.rs := by
  induction n with
  | zero => rfl
  | succ n ih => exact ih
@[simp] theorem State.loadRegs_kx (a n : Nat) : (s.loadRegs a n).kx = s.kx := by
  induction n with
  | zero => rfl
  | succ n ih => exact ih
@[simp] theorem State.loadRegs_inputs (a n : Nat) : (s.loadRegs a n).inputs = s.inputs := by
  induction n with
  | zero => rfl
  | succ n ih => exact ih

end Sys2Proof.Machine
end

