-- ==== Sys2Proof/Laws/Ops.lean ====
section
/-!
SUPPORT. What each shared operation does, once: registers, the call stack, register ranges, and the operations that may
end in a fault (jumpTo, withData, withKey).
-/
namespace Sys2Proof.Machine

/-! ## Registers -/

theorem State.reg_setReg (s : State) (x r : Nibble) (b : Byte) :
    (s.setReg x b).reg r = if r = x then b else s.reg r := by
  simp only [State.reg, State.setReg, Vector.getElem_set, BitVec.toNat_inj]
  by_cases h : x = r
  · subst h; simp
  · simp [h, Ne.symm h]

@[simp] theorem State.reg_setReg_self (s : State) (x : Nibble) (b : Byte) : (s.setReg x b).reg x = b := by
  simp [State.reg_setReg]

/-- A register read depends on the registers only. -/
theorem State.reg_congr {s t : State} (h : t.v = s.v) (r : Nibble) : t.reg r = s.reg r := by simp [State.reg, h]

@[simp] theorem State.reg_setIreg (s : State) (w : Word) (r : Nibble) : (s.setIreg w).reg r = s.reg r := rfl
@[simp] theorem State.reg_setPc (s : State) (w : Word) (r : Nibble) : (s.setPc w).reg r = s.reg r := rfl
@[simp] theorem State.reg_setDt (s : State) (b : Byte) (r : Nibble) : (s.setDt b).reg r = s.reg r := rfl
@[simp] theorem State.reg_setSt (s : State) (b : Byte) (r : Nibble) : (s.setSt b).reg r = s.reg r := rfl
@[simp] theorem State.reg_advance (s : State) (r : Nibble) : s.advance.reg r = s.reg r := rfl
@[simp] theorem State.reg_skipIf (s : State) (c : Bool) (r : Nibble) : (s.skipIf c).reg r = s.reg r := rfl
@[simp] theorem State.reg_pop (s : State) (r : Nibble) : s.pop.reg r = s.reg r := rfl
@[simp] theorem State.reg_push (s : State) (w : Word) (r : Nibble) : (s.push w).reg r = s.reg r :=
  State.reg_congr (State.push_v s w) r
@[simp] theorem State.reg_store (s : State) (a : Nat) (bs : List Byte) (r : Nibble) : (s.store a bs).reg r = s.reg r := rfl
@[simp] theorem State.reg_tick (s : State) (r : Nibble) : s.tick.reg r = s.reg r := rfl
@[simp] theorem State.reg_setFb (s : State) (fb : Framebuffer) (r : Nibble) : (s.setFb fb).reg r = s.reg r := rfl
@[simp] theorem State.reg_beginWait (s : State) (x r : Nibble) : (s.beginWait x).reg r = s.reg r := rfl
@[simp] theorem State.reg_endWait (s : State) (r : Nibble) : s.endWait.reg r = s.reg r := rfl
@[simp] theorem State.reg_sample (s : State) (r : Nibble) : s.sample.reg r = s.reg r := rfl

/-- `V[0]..V[n - 1]` loaded from `a` on, every other register kept (42_index_and_memory.md R125). -/
theorem State.reg_loadRegs (s : State) (a n : Nat) (hn : n ≤ 16) (r : Nibble) :
    (s.loadRegs a n).reg r = if r.toNat < n then s.readByte (a + r.toNat) else s.reg r := by
  induction n with
  | zero => simp [State.loadRegs]
  | succ n ih =>
    simp only [State.loadRegs, State.reg_setReg, ih (by omega)]
    have hr : r = BitVec.ofNat 4 n ↔ r.toNat = n := by
      rw [← BitVec.toNat_inj, BitVec.toNat_ofNat, Nat.mod_eq_of_lt (by omega)]
    by_cases h : r.toNat = n
    · rw [if_pos (hr.2 h), if_pos (by omega), h]
    · rw [if_neg (mt hr.1 h)]
      by_cases h' : r.toNat < n
      · rw [if_pos h', if_pos (by omega)]
      · rw [if_neg h', if_neg (by omega)]

@[simp] theorem regsBelow_length (s : State) (n : Nat) : (regsBelow s n).length = n := by simp [regsBelow]

theorem regsBelow_getD (s : State) {n j : Nat} (h : j < n) : (regsBelow s n).getD j 0 = s.reg (BitVec.ofNat 4 j) := by
  simp [regsBelow, List.getD, h]

@[simp] theorem bcdDigits_length (b : Byte) : (bcdDigits b).length = 3 := rfl

/-! ## Reading memory and the screen depends on those fields only -/

theorem State.readByte_congr {s t : State} (h : t.mem = s.mem) (a : Nat) : t.readByte a = s.readByte a := by
  simp [State.readByte, h]

theorem State.pixel_congr {s t : State} (h : t.fb = s.fb) (row col : Nat) : t.pixel row col = s.pixel row col := by
  simp [State.pixel, h]

theorem State.fetch_congr {s t : State} (hp : t.pc = s.pc) (hm : t.mem = s.mem) : t.fetch = s.fetch := by
  simp [State.fetch, State.readByte, hp, hm]

/-- A word is fetched exactly where PC is at most 0xFFE (60_exceptions.md R173). -/
theorem State.fetch_eq_some {s : State} {op : Word} (h : s.fetch = some op) :
    s.pc.toNat ≤ 0xFFE ∧ op = wordOfBytes (s.readByte s.pc.toNat) (s.readByte (s.pc.toNat + 1)) := by
  unfold State.fetch at h
  split at h
  · cases h
  · exact ⟨by omega, (Option.some.inj h).symm⟩

/-- Bytes stored in a canonical memory are read back, and no other byte changes. -/
theorem State.readByte_store {s : State} (h : Memory.wf s.mem = true) {a : Nat} (bs : List Byte)
    (ha : a + bs.length ≤ 0x1000) (c : Nat) :
    (s.store a bs).readByte c = if a ≤ c ∧ c < a + bs.length then bs.getD (c - a) 0 else s.readByte c :=
  Memory.read_writeBytes h bs ha c

/-! ## The call stack -/

theorem State.push_of_full {s : State} (h : s.sp.val = 16) (w : Word) : s.push w = s := by
  unfold State.push; rw [dif_neg (by omega)]

theorem State.push_sp {s : State} (h : s.sp.val < 16) (w : Word) : (s.push w).sp.val = s.sp.val + 1 := by
  unfold State.push; rw [dif_pos h]

theorem State.push_stack {s : State} (h : s.sp.val < 16) (w : Word) (k : Nat) (hk : k < 16) :
    (s.push w).stack[k] = if k = s.sp.val then w else s.stack[k] := by
  unfold State.push; rw [dif_pos h]
  simp only [Vector.getElem_set]
  by_cases hks : s.sp.val = k
  · simp [hks]
  · simp [hks, Ne.symm hks]

/-- A pushed value is the one popped next (10_state.md R20). -/
theorem State.top_push {s : State} (h : s.sp.val < 16) (w : Word) : (s.push w).top = w := by
  have hsp := State.push_sp h w
  unfold State.top
  simp only [hsp, Nat.add_sub_cancel]
  rw [State.push_stack h w _ h, if_pos rfl]

/-! ## Operations that may fault -/

theorem raise_ne_next (f : Word → Word → Fault) (i : Instr) (s t : State) : raise f i s ≠ .next t := nofun

/-- `jumpTo` completes exactly for an even target, with PC at the target. -/
theorem jumpTo_next {target : Word} {i : Instr} {s t u : State} :
    jumpTo target i s t = .next u ↔ isOdd target = false ∧ u = t.setPc target := by
  unfold jumpTo
  cases isOdd target <;> simp [raise, eq_comm]

theorem isOdd_eq (w : Word) : isOdd w = decide (w.toNat % 2 = 1) := by
  simp [isOdd, BitVec.getLsbD, Nat.testBit_zero]

/-- `withData` goes on exactly where no byte is accessed or the highest address is at most 0xFFF. -/
theorem withData_of_ok {len : Nat} (i : Instr) {s : State} (done : Result)
    (h : len = 0 ∨ s.ireg.toNat + len ≤ 0x1000) : withData len i s done = done := by
  unfold withData dataAddr Config.addrMax
  rw [if_neg (by omega)]

theorem withData_of_not_ok {len : Nat} (i : Instr) {s : State} (done : Result)
    (h : len ≠ 0) (h' : 0x1000 < s.ireg.toNat + len) :
    withData len i s done = .fault (.dataAddress s.pc (encode i) (s.ireg.toNat + (len - 1))) := by
  unfold withData dataAddr Config.addrMax
  rw [if_pos (by omega)]; rfl

/-- What `withData` can answer with a next state. -/
theorem withData_next {len : Nat} {i : Instr} {s t : State} {done : Result} (h : withData len i s done = .next t) :
    done = .next t ∧ (len = 0 ∨ s.ireg.toNat + len ≤ 0x1000) := by
  by_cases hok : len = 0 ∨ s.ireg.toNat + len ≤ 0x1000
  · rw [withData_of_ok i done hok] at h; exact ⟨h, hok⟩
  · rw [withData_of_not_ok i done (by omega) (by omega)] at h; cases h

/-- A byte of at most 0x0F names its own key; `withKey` then goes on with the level of that key. -/
theorem withKey_of_key {b : Byte} (i : Instr) (s : State) (done : Bool → Result) (h : b.toNat ≤ 15) :
    withKey b i s done = done (s.keyHeld (b.setWidth 4)) := by
  unfold withKey keyOf; rw [if_neg (by omega)]

theorem withKey_of_no_key {b : Byte} (i : Instr) (s : State) (done : Bool → Result) (h : 15 < b.toNat) :
    withKey b i s done = .fault (.keyIndex s.pc (encode i) b) := by
  unfold withKey keyOf; rw [if_pos (by omega)]; rfl

theorem withKey_next {b : Byte} {i : Instr} {s t : State} {done : Bool → Result} (h : withKey b i s done = .next t) :
    b.toNat ≤ 15 ∧ done (s.keyHeld (b.setWidth 4)) = .next t := by
  by_cases hb : b.toNat ≤ 15
  · exact ⟨hb, by rwa [withKey_of_key i s done hb] at h⟩
  · rw [withKey_of_no_key i s done (by omega)] at h; cases h

/-! ## The timers -/

/-- A timer counts toward zero and stays there (60_exceptions.md R174). -/
theorem countDown_toNat (b : Byte) : (countDown b).toNat = b.toNat - 1 := by
  unfold countDown
  split
  · next h => subst h; rfl
  · next h =>
    have : b.toNat ≠ 0 := fun h0 => h (BitVec.eq_of_toNat_eq (by simpa using h0))
    rw [BitVec.toNat_sub]
    have := b.isLt
    have h1 : (1 : Byte).toNat = 1 := rfl
    omega

end Sys2Proof.Machine
end

