-- ==== Sys2Proof/Laws/Flags.lean ====
section
/-!
SUPPORT. The flag write and the flag-then-result write (10_state.md R14, 41_alu.md R112).
-/
namespace Sys2Proof.Machine

theorem State.reg_setFlag (s : State) (c : Bool) (r : Nibble) :
    (s.setFlag c).reg r = if r = 0xF then (if c then 1 else 0) else s.reg r := State.reg_setReg s vf r _

/-- The result is written last: it stays in `V[x]` even where `x` is VF; VF holds the flag where `x` is not VF. -/
theorem State.reg_setFlagged (s : State) (x : Nibble) (c : Bool) (b : Byte) (r : Nibble) :
    (s.setFlagged x c b).reg r = if r = x then b else if r = 0xF then (if c then 1 else 0) else s.reg r := by
  rw [State.setFlagged, State.reg_setReg, State.reg_setFlag]

/-- A flagged write changes the registers only. -/
theorem State.setFlagged_eq (s : State) (x : Nibble) (c : Bool) (b : Byte) :
    s.setFlagged x c b = { s with v := (s.setFlagged x c b).v } := rfl

end Sys2Proof.Machine
end

