-- ==== Sys2Proof/Laws/Display.lean ====
section
/-!
SUPPORT. The draw, cell by cell: the pixels a sprite targets are distinct, so drawing them one by one toggles each targeted
cell once and reports a collision exactly where a targeted cell was set before.
-/
namespace Sys2Proof.Machine

theorem Framebuffer.cell_toggle (fb : Framebuffer) (row col r c : Nat) (hc : c < 64) (hr : r < 32) :
    Framebuffer.cell (Framebuffer.toggle fb row col) r c = (Framebuffer.cell fb r c ^^ decide (row = r ∧ col = c)) := by
  unfold Framebuffer.toggle Framebuffer.cell
  by_cases h : row < 32
  · simp only [h, hr, dite_true, Vector.getElem_set]
    by_cases hrr : row = r
    · subst hrr
      simp [hc, eq_comm]
    · simp [hrr]
  · have : row ≠ r := by omega
    simp [h, hr, this]

theorem Framebuffer.cell_of_row {fb : Framebuffer} {row col : Nat} (h : 32 ≤ row) : Framebuffer.cell fb row col = false := by
  unfold Framebuffer.cell; rw [dif_neg (by omega)]

theorem Framebuffer.cell_of_col {fb : Framebuffer} {row col : Nat} (h : 64 ≤ col) : Framebuffer.cell fb row col = false := by
  unfold Framebuffer.cell; split
  · exact BitVec.getLsbD_of_ge _ _ h
  · rfl

/-- Two framebuffers with the same cells are equal. -/
theorem Framebuffer.ext_cells {fb fb' : Framebuffer}
    (h : ∀ row col, row < 32 → col < 64 → Framebuffer.cell fb row col = Framebuffer.cell fb' row col) : fb = fb' := by
  apply Vector.ext
  intro row hrow
  apply BitVec.eq_of_getLsbD_eq
  intro col hcol
  simpa [Framebuffer.cell, hrow] using h row col hrow hcol

/-- The cells after drawing distinct pixels. -/
theorem drawPixels_cell (ps : List Pixel) (hn : ps.Nodup) (fb : Framebuffer) (hit : Bool) (r c : Nat)
    (hr : r < 32) (hc : c < 64) :
    Framebuffer.cell (drawPixels fb hit ps).1 r c = (Framebuffer.cell fb r c ^^ decide (Pixel.mk c r ∈ ps)) := by
  induction ps generalizing fb hit with
  | nil => simp [drawPixels]
  | cons p ps ih =>
    rw [List.nodup_cons] at hn
    simp only [drawPixels]
    rw [ih hn.2, Framebuffer.cell_toggle _ _ _ _ _ hc hr]
    by_cases hp : p.row = r ∧ p.col = c
    · obtain ⟨h1, h2⟩ := hp
      have : Pixel.mk c r = p := by subst h1 h2; rfl
      rw [this]; simp [hn.1, h1, h2]
    · have : Pixel.mk c r ≠ p := fun he => hp (by rw [← he]; exact ⟨rfl, rfl⟩)
      simp [hp, this]

/-- The collision flag after drawing distinct pixels of the grid. -/
theorem drawPixels_hit (ps : List Pixel) (hn : ps.Nodup) (hg : ∀ p ∈ ps, p.inGrid = true) (fb : Framebuffer) (hit : Bool) :
    (drawPixels fb hit ps).2 = true ↔ hit = true ∨ ∃ p ∈ ps, Framebuffer.cell fb p.row p.col = true := by
  induction ps generalizing fb hit with
  | nil => simp [drawPixels]
  | cons p ps ih =>
    rw [List.nodup_cons] at hn
    have key : ∀ q ∈ ps, Framebuffer.cell (Framebuffer.toggle fb p.row p.col) q.row q.col = Framebuffer.cell fb q.row q.col := by
      intro q hq
      have hqg := hg q (List.mem_cons_of_mem _ hq)
      simp only [Pixel.inGrid, Bool.and_eq_true, decide_eq_true_eq] at hqg
      rw [Framebuffer.cell_toggle _ _ _ _ _ (by omega) (by omega)]
      have : ¬ (p.row = q.row ∧ p.col = q.col) := by
        rintro ⟨h1, h2⟩
        apply hn.1
        have : p = q := by cases p; cases q; simp_all
        rwa [this]
      simp [this]
    simp only [drawPixels]
    rw [ih hn.2 (fun q hq => hg q (List.mem_cons_of_mem _ hq))]
    simp only [Bool.or_eq_true, List.mem_cons, or_assoc]
    refine or_congr Iff.rfl ⟨?_, ?_⟩
    · rintro (h | ⟨q, hq, h⟩)
      · exact ⟨p, Or.inl rfl, h⟩
      · exact ⟨q, Or.inr hq, by rwa [key q hq] at h⟩
    · rintro ⟨q, rfl | hq, h⟩
      · exact Or.inl h
      · exact Or.inr ⟨q, hq, by rwa [key q hq]⟩

theorem mem_rowPixels {x0 row : Nat} {b : Byte} {p : Pixel} :
    p ∈ rowPixels x0 row b ↔ ∃ c, c < 8 ∧ b.getLsbD (7 - c) = true ∧ p = ⟨x0 + c, row⟩ := by
  simp only [rowPixels, spriteBit, List.mem_map, List.mem_filter, List.mem_range]
  constructor
  · rintro ⟨c, ⟨h1, h2⟩, rfl⟩; exact ⟨c, h1, h2, rfl⟩
  · rintro ⟨c, h1, h2, rfl⟩; exact ⟨c, ⟨h1, h2⟩, rfl⟩

theorem rowPixels_nodup (x0 row : Nat) (b : Byte) : (rowPixels x0 row b).Nodup := by
  refine List.Nodup.map ?_ (List.Nodup.filter _ List.nodup_range)
  intro c d h
  have := congrArg Pixel.col h
  simp only at this
  omega

theorem mem_spritePixels {x0 row : Nat} {bs : List Byte} {p : Pixel} :
    p ∈ spritePixels x0 row bs ↔
      ∃ r c b, bs[r]? = some b ∧ c < 8 ∧ b.getLsbD (7 - c) = true ∧ p = ⟨x0 + c, row + r⟩ := by
  induction bs generalizing row with
  | nil => simp [spritePixels]
  | cons b bs ih =>
    simp only [spritePixels, List.mem_append, mem_rowPixels, ih]
    constructor
    · rintro (⟨c, h1, h2, rfl⟩ | ⟨r, c, b', h0, h1, h2, rfl⟩)
      · exact ⟨0, c, b, rfl, h1, h2, rfl⟩
      · exact ⟨r + 1, c, b', by simpa using h0, h1, h2, by congr 1; omega⟩
    · rintro ⟨r, c, b', h0, h1, h2, rfl⟩
      cases r with
      | zero => left; exact ⟨c, h1, by simp at h0; rwa [h0], rfl⟩
      | succ r => right; exact ⟨r, c, b', by simpa using h0, h1, h2, by congr 1; omega⟩

theorem spritePixels_nodup (x0 row : Nat) (bs : List Byte) : (spritePixels x0 row bs).Nodup := by
  induction bs generalizing row with
  | nil => exact List.nodup_nil
  | cons b bs ih =>
    refine List.Nodup.append (rowPixels_nodup _ _ _) (ih _) ?_
    intro p hp hq
    obtain ⟨c, -, -, rfl⟩ := mem_rowPixels.1 hp
    obtain ⟨r, c', b', -, -, -, h⟩ := mem_spritePixels.1 hq
    have := congrArg Pixel.row h
    simp only at this
    omega

/-- The pixels of `Dxyn`, from the set bits of the sprite (43_display.md R142). -/
theorem mem_drwPixels {x y n : Nibble} {s : State} {p : Pixel} :
    p ∈ drwPixels x y n s ↔
      ∃ r c, spriteSet n s r c = true ∧ p = ⟨(s.reg x).toNat + c, (s.reg y).toNat + r⟩ := by
  simp only [drwPixels, mem_spritePixels, Memory.readBytes_getElem?, spriteSet, dataAddr, State.readByte, Nat.add_zero,
    Bool.and_eq_true, decide_eq_true_eq]
  constructor
  · rintro ⟨r, c, b, h0, h1, h2, rfl⟩
    split at h0
    · next hr => cases h0; exact ⟨r, c, ⟨⟨hr, h1⟩, h2⟩, rfl⟩
    · cases h0
  · rintro ⟨r, c, ⟨⟨hr, h1⟩, h2⟩, rfl⟩
    exact ⟨r, c, _, if_pos hr, h1, h2, rfl⟩

theorem drwPixels_nodup (x y n : Nibble) (s : State) : (drwPixels x y n s).Nodup := spritePixels_nodup _ _ _

/-- What stages 2 and 3 can answer with a next state. -/
theorem drawChecked_next {ps : List Pixel} {i : Instr} {s t : State} (h : drawChecked ps i s = .next t) :
    (∀ p ∈ ps, p.inGrid = true) ∧ t = (s.draw ps).advance := by
  unfold drawChecked at h
  split at h
  · cases h
  · next hf =>
    rw [List.find?_eq_none] at hf
    refine ⟨fun p hp => ?_, by cases h; rfl⟩
    simpa using hf p hp

theorem drawChecked_of_inGrid {ps : List Pixel} (i : Instr) (s : State) (h : ∀ p ∈ ps, p.inGrid = true) :
    drawChecked ps i s = .next (s.draw ps).advance := by
  unfold drawChecked
  have : ps.find? (fun p => !p.inGrid) = none := by
    rw [List.find?_eq_none]; intro p hp; simp [h p hp]
  rw [this]

end Sys2Proof.Machine
end

