-- ==== Sys2Proof/Laws/Encoding.lean ====
section
/-!
SUPPORT. The fields of a packed word, one lemma per format and field (30_encoding.md R61, R62).
-/
namespace Sys2Proof

theorem fieldMajor_packNibbles (a b c d : Nibble) : fieldMajor (packNibbles a b c d) = a := by
  apply BitVec.eq_of_getLsbD_eq
  intro k hk
  simp only [fieldMajor, packNibbles, BitVec.getLsbD_extractLsb', BitVec.getLsbD_append]
  simp [hk, show ¬ 12 + k < 4 by omega, show ¬ 12 + k - 4 < 4 by omega, show ¬ 12 + k - 4 - 4 < 4 by omega,
    show 12 + k - 4 - 4 - 4 = k by omega]

theorem fieldX_packNibbles (a b c d : Nibble) : fieldX (packNibbles a b c d) = b := by
  apply BitVec.eq_of_getLsbD_eq
  intro k hk
  simp only [fieldX, packNibbles, BitVec.getLsbD_extractLsb', BitVec.getLsbD_append]
  simp [hk, show ¬ 8 + k < 4 by omega, show ¬ 8 + k - 4 < 4 by omega, show 8 + k - 4 - 4 = k by omega]

theorem fieldY_packNibbles (a b c d : Nibble) : fieldY (packNibbles a b c d) = c := by
  apply BitVec.eq_of_getLsbD_eq
  intro k hk
  simp only [fieldY, packNibbles, BitVec.getLsbD_extractLsb', BitVec.getLsbD_append]
  simp [hk, show ¬ 4 + k < 4 by omega, show 4 + k - 4 = k by omega]

theorem fieldN_packNibbles (a b c d : Nibble) : fieldN (packNibbles a b c d) = d := by
  apply BitVec.eq_of_getLsbD_eq
  intro k hk
  simp only [fieldN, packNibbles, BitVec.getLsbD_extractLsb', BitVec.getLsbD_append]
  simp [hk]

theorem fieldMajor_packByte (a x : Nibble) (kk : Byte) : fieldMajor (packByte a x kk) = a := by
  apply BitVec.eq_of_getLsbD_eq
  intro k hk
  simp only [fieldMajor, packByte, BitVec.getLsbD_extractLsb', BitVec.getLsbD_append]
  simp [hk, show ¬ 12 + k < 8 by omega, show ¬ 12 + k - 8 < 4 by omega, show 12 + k - 8 - 4 = k by omega]

theorem fieldX_packByte (a x : Nibble) (kk : Byte) : fieldX (packByte a x kk) = x := by
  apply BitVec.eq_of_getLsbD_eq
  intro k hk
  simp only [fieldX, packByte, BitVec.getLsbD_extractLsb', BitVec.getLsbD_append]
  simp [hk]

theorem fieldKk_packByte (a x : Nibble) (kk : Byte) : fieldKk (packByte a x kk) = kk := by
  apply BitVec.eq_of_getLsbD_eq
  intro k hk
  simp only [fieldKk, packByte, BitVec.getLsbD_extractLsb', BitVec.getLsbD_append]
  simp [hk]

theorem fieldMajor_packAddr (a : Nibble) (nnn : Addr) : fieldMajor (packAddr a nnn) = a := by
  apply BitVec.eq_of_getLsbD_eq
  intro k hk
  simp only [fieldMajor, packAddr, BitVec.getLsbD_extractLsb', BitVec.getLsbD_append]
  simp [hk]

theorem fieldNnn_packAddr (a : Nibble) (nnn : Addr) : fieldNnn (packAddr a nnn) = nnn := by
  apply BitVec.eq_of_getLsbD_eq
  intro k hk
  simp only [fieldNnn, packAddr, BitVec.getLsbD_extractLsb', BitVec.getLsbD_append]
  simp [hk]

/-- A word is the nibbles of its fields. -/
theorem packNibbles_fields (op : Word) : packNibbles (fieldMajor op) (fieldX op) (fieldY op) (fieldN op) = op := by
  apply BitVec.eq_of_getLsbD_eq
  intro k hk
  simp only [fieldMajor, fieldX, fieldY, fieldN, packNibbles, BitVec.getLsbD_extractLsb', BitVec.getLsbD_append]
  by_cases h1 : k < 4
  · simp [h1]
  · by_cases h2 : k - 4 < 4
    · simp [h1, h2, show 4 + (k - 4) = k by omega]
    · by_cases h3 : k - 4 - 4 < 4
      · simp [h1, h2, h3, show 8 + (k - 4 - 4) = k by omega]
      · simp [h1, h2, h3, show k - 4 - 4 - 4 < 4 by omega, show 12 + (k - 4 - 4 - 4) = k by omega]

/-- A word is its major opcode, its `x` and its low byte. -/
theorem packByte_fields (op : Word) : packByte (fieldMajor op) (fieldX op) (fieldKk op) = op := by
  apply BitVec.eq_of_getLsbD_eq
  intro k hk
  simp only [fieldMajor, fieldX, fieldKk, packByte, BitVec.getLsbD_extractLsb', BitVec.getLsbD_append]
  by_cases h1 : k < 8
  · simp [h1]
  · by_cases h2 : k - 8 < 4
    · simp [h1, h2, show 8 + (k - 8) = k by omega]
    · simp [h1, h2, show k - 8 - 4 < 4 by omega, show 12 + (k - 8 - 4) = k by omega]

/-- A word is its major opcode and its address field. -/
theorem packAddr_fields (op : Word) : packAddr (fieldMajor op) (fieldNnn op) = op := by
  apply BitVec.eq_of_getLsbD_eq
  intro k hk
  simp only [fieldMajor, fieldNnn, packAddr, BitVec.getLsbD_extractLsb', BitVec.getLsbD_append]
  by_cases h1 : k < 12
  · simp [h1]
  · simp [h1, show k - 12 < 4 by omega, show 12 + (k - 12) = k by omega]

end Sys2Proof
end

