-- ==== Sys2Proof/Laws/Exec.lean ====
section
/-!
SUPPORT. What the execute stage and the step can do, once: the next state of each instruction and the condition it needs,
and the step by the fetched word.
-/
namespace Sys2Proof.Machine

/-- Everything an instruction that completes has done. -/
theorem exec_next {i : Instr} {s t : State} (h : exec i s = .next t) :
    match i with
    | .cls => t = (s.setFb (Vector.replicate 32 0)).advance
    | .ret => s.sp.val ≠ 0 ∧ t = s.pop.setPc s.top
    | .jp nnn => isOdd (addrTarget nnn) = false ∧ t = s.setPc (addrTarget nnn)
    | .call nnn =>
      s.sp.val < 16 ∧ isOdd (addrTarget nnn) = false ∧ t = (s.push (s.pc + 2)).setPc (addrTarget nnn)
    | .seImm x kk => t = s.skipIf (s.reg x == kk)
    | .sneImm x kk => t = s.skipIf (s.reg x != kk)
    | .seReg x y => t = s.skipIf (s.reg x == s.reg y)
    | .sneReg x y => t = s.skipIf (s.reg x != s.reg y)
    | .ldImm x kk => t = (s.setReg x kk).advance
    | .addImm x kk => t = (s.setReg x (s.reg x + kk)).advance
    | .ldReg x y => t = (s.setReg x (s.reg y)).advance
    | .orReg x y => t = (s.setReg x (s.reg x ||| s.reg y)).advance
    | .andReg x y => t = (s.setReg x (s.reg x &&& s.reg y)).advance
    | .xorReg x y => t = (s.setReg x (s.reg x ^^^ s.reg y)).advance
    | .addReg x y => t = (s.setFlagged x (carryFlag (s.reg x) (s.reg y)) (s.reg x + s.reg y)).advance
    | .sub x y => t = (s.setFlagged x (noBorrowFlag (s.reg x) (s.reg y)) (s.reg x - s.reg y)).advance
    | .shr x _ => t = (s.setFlagged x (shrFlag (s.reg x)) (s.reg x >>> 1)).advance
    | .subn x y => t = (s.setFlagged x (noBorrowFlag (s.reg y) (s.reg x)) (s.reg y - s.reg x)).advance
    | .shl x _ => t = (s.setFlagged x (shlFlag (s.reg x)) (s.reg x <<< 1)).advance
    | .ldI nnn => t = (s.setIreg (addrTarget nnn)).advance
    | .jpV0 nnn => isOdd (indexedTarget nnn s) = false ∧ t = s.setPc (indexedTarget nnn s)
    | .rnd x kk => t = (s.sample.setReg x (s.randByte &&& kk)).advance
    | .drw x y n =>
      (n.toNat = 0 ∨ s.ireg.toNat + n.toNat ≤ 0x1000) ∧ (∀ p ∈ drwPixels x y n s, p.inGrid = true) ∧
        t = (s.draw (drwPixels x y n s)).advance
    | .skp x => (s.reg x).toNat ≤ 15 ∧ t = s.sample.skipIf (s.keyHeld ((s.reg x).setWidth 4))
    | .sknp x => (s.reg x).toNat ≤ 15 ∧ t = s.sample.skipIf (!s.keyHeld ((s.reg x).setWidth 4))
    | .ldVxDt x => t = (s.setReg x s.dt).advance
    | .ldDtVx x => t = (s.setDt (s.reg x)).advance
    | .ldStVx x => t = (s.setSt (s.reg x)).advance
    | .ldVxK x => t = s.beginWait x
    | .addI x => t = (s.setIreg (s.ireg + (s.reg x).setWidth 16)).advance
    | .ldF x => t = (s.setIreg (glyphAddr (s.reg x))).advance
    | .ldB x => s.ireg.toNat + 3 ≤ 0x1000 ∧ t = (s.store s.ireg.toNat (bcdDigits (s.reg x))).advance
    | .stRegs x =>
      s.ireg.toNat + regCount x ≤ 0x1000 ∧ t = (s.store s.ireg.toNat (regsBelow s (regCount x))).advance
    | .ldRegs x => s.ireg.toNat + regCount x ≤ 0x1000 ∧ t = (s.loadRegs s.ireg.toNat (regCount x)).advance := by
  cases i with
  | ret =>
    simp only [exec, execRet] at h
    split at h
    · cases h
    · next hs => exact ⟨hs, by cases h; rfl⟩
  | jp nnn => exact jumpTo_next.1 h
  | call nnn =>
    simp only [exec, execCall] at h
    split at h
    · cases h
    · next hs =>
      have := s.sp.isLt
      exact ⟨by omega, jumpTo_next.1 h⟩
  | jpV0 nnn => exact jumpTo_next.1 h
  | drw x y n =>
    obtain ⟨h1, h2⟩ := withData_next (show withData _ _ _ _ = _ from h)
    exact ⟨h2, drawChecked_next h1⟩
  | skp x =>
    simp only [exec, execSkp] at h
    obtain ⟨h1, h2⟩ := withKey_next h
    exact ⟨h1, by cases h2; rfl⟩
  | sknp x =>
    simp only [exec, execSknp] at h
    obtain ⟨h1, h2⟩ := withKey_next h
    exact ⟨h1, by cases h2; rfl⟩
  | ldB x =>
    obtain ⟨h1, h2⟩ := withData_next (show withData _ _ _ _ = _ from h)
    exact ⟨by omega, by cases h1; rfl⟩
  | stRegs x =>
    obtain ⟨h1, h2⟩ := withData_next (show withData _ _ _ _ = _ from h)
    exact ⟨by unfold regCount at *; omega, by cases h1; rfl⟩
  | ldRegs x =>
    obtain ⟨h1, h2⟩ := withData_next (show withData _ _ _ _ = _ from h)
    exact ⟨by unfold regCount at *; omega, by cases h1; rfl⟩
  | _ => cases h; rfl

/-- The step while the block runs, by the fetched word. -/
theorem step_run {s : State} (h : s.rs = .run) : step s = (match s.fetch with
    | none => .fault (.fetchAddress s.pc)
    | some op => (cycleOf op s).outcome) := by
  unfold step cycle; rw [h]; cases s.fetch <;> rfl

/-- The cycle of a word that decodes to `i`. -/
theorem cycleOf_some {op : Word} {i : Instr} (h : decode op = some i) (s : State) :
    cycleOf op s = ⟨tickAfter i (exec i s), none⟩ := by unfold cycleOf; rw [h]

/-- The cycle of an unknown opcode. -/
theorem cycleOf_none {op : Word} (h : decode op = none) (s : State) :
    cycleOf op s = ⟨.next s.advance.tick, some ⟨op, s.pc⟩⟩ := by unfold cycleOf; rw [h]

/-- The step while a key is awaited. -/
theorem step_await {s : State} (h : s.rs = .awaitKey) : step s = .next (awaitInput s) := by unfold step; rw [h]

/-- Sampling an input does not change what a key press does. -/
theorem keyPress_sample (k : Nibble) (s : State) : keyPress k s.sample = (keyPress k s).sample := by
  by_cases h : s.rs = .run
  · rw [keyPress, keyPress, State.sample_rs, h]
  · have h : s.rs = .awaitKey := by cases hr : s.rs <;> simp_all
    rw [keyPress, keyPress, State.sample_rs, h]; rfl

/-- The states a wait can step to. -/
theorem awaitInput_cases (s : State) : awaitInput s = s.sample ∨ ∃ k, awaitInput s = (keyPress k s).sample := by
  unfold awaitInput
  cases Config.keyPressed s.inputs with
  | none => exact .inl rfl
  | some k => exact .inr ⟨k, keyPress_sample k s⟩

theorem beginsWait_iff (i : Instr) : beginsWait i = true ↔ ∃ x, i = .ldVxK x := by
  cases i <;> simp [beginsWait]

end Sys2Proof.Machine
end

