-- ==== Sys2Proof/Laws/PerInstr.lean ====
section
/-!
SUPPORT. Laws per instruction. Family MaskMatch: the word of an instruction matches the row of the opcode map the spec
prints for it (30_encoding.md R63, R64).
-/
namespace Sys2Proof.Laws.MaskMatch

/-- The encoded word of an instruction matches its row of the opcode map: `encode i & mask = match`. -/
def Statement (i : Instr) : Prop := (opRow i).matches (encode i) = true

theorem and_none {w : Nat} (a : BitVec w) : a &&& 0 = 0 := BitVec.and_zero

theorem and_nibble (a : Nibble) : a &&& 0xF = a := BitVec.and_allOnes

theorem and_byte (a : Byte) : a &&& 0xFF = a := BitVec.and_allOnes

theorem and_packNibbles (a b c d a' b' c' d' : Nibble) :
    packNibbles a b c d &&& packNibbles a' b' c' d' = packNibbles (a &&& a') (b &&& b') (c &&& c') (d &&& d') := by
  apply BitVec.eq_of_getLsbD_eq
  intro k _
  simp only [packNibbles, BitVec.getLsbD_and, BitVec.getLsbD_append]
  repeat' split
  all_goals rfl

theorem and_packByte (a x a' x' : Nibble) (kk kk' : Byte) :
    packByte a x kk &&& packByte a' x' kk' = packByte (a &&& a') (x &&& x') (kk &&& kk') := by
  apply BitVec.eq_of_getLsbD_eq
  intro k _
  simp only [packByte, BitVec.getLsbD_and, BitVec.getLsbD_append]
  repeat' split
  all_goals rfl

theorem and_packAddr (a a' : Nibble) (nnn nnn' : Addr) :
    packAddr a nnn &&& packAddr a' nnn' = packAddr (a &&& a') (nnn &&& nnn') := by
  apply BitVec.eq_of_getLsbD_eq
  intro k _
  simp only [packAddr, BitVec.getLsbD_and, BitVec.getLsbD_append]
  repeat' split
  all_goals rfl

/-- The mask of formats I and X: the major opcode and the fixed bits of the low byte. -/
theorem matches_packByte (a x : Nibble) (kk m : Byte) :
    (OpRow.mk (packByte 0xF 0 m) (packByte a 0 (kk &&& m))).matches (packByte a x kk) = true := by
  unfold OpRow.matches
  rw [and_packByte, and_none, and_nibble, beq_self_eq_true]

/-- The mask of formats R and D: the major opcode and the fixed bits of the minor opcode. -/
theorem matches_packNibbles (a x y n m : Nibble) :
    (OpRow.mk (packNibbles 0xF 0 0 m) (packNibbles a 0 0 (n &&& m))).matches (packNibbles a x y n) = true := by
  unfold OpRow.matches
  rw [and_packNibbles, and_none, and_none, and_nibble,
    beq_self_eq_true]

/-- The mask of format A: the major opcode. -/
theorem matches_packAddr (a : Nibble) (nnn : Addr) :
    (OpRow.mk (packAddr 0xF 0) (packAddr a 0)).matches (packAddr a nnn) = true := by
  unfold OpRow.matches
  rw [and_packAddr, and_none, and_nibble, beq_self_eq_true]

/-- Immediate rows: nothing of the low byte is fixed. -/
theorem imm_row (a x : Nibble) (kk : Byte) (v : Word) (h : packByte a 0 0 = v) :
    (OpRow.mk 0xF000 v).matches (packByte a x kk) = true := by
  have := matches_packByte a x kk 0
  rwa [and_none, h] at this

/-- Function rows: the whole low byte is fixed. -/
theorem fun_row (a x : Nibble) (kk : Byte) (v : Word) (h : packByte a 0 kk = v) :
    (OpRow.mk 0xF0FF v).matches (packByte a x kk) = true := by
  have := matches_packByte a x kk 0xFF
  rwa [and_byte, h] at this

/-- Register rows: the minor opcode is fixed. -/
theorem reg_row (a x y n : Nibble) (v : Word) (h : packNibbles a 0 0 n = v) :
    (OpRow.mk 0xF00F v).matches (packNibbles a x y n) = true := by
  have := matches_packNibbles a x y n 0xF
  rwa [and_nibble, h] at this

/-- Address rows. -/
theorem addr_row (a : Nibble) (nnn : Addr) (v : Word) (h : packAddr a 0 = v) :
    (OpRow.mk 0xF000 v).matches (packAddr a nnn) = true := by
  have := matches_packAddr a nnn
  rwa [h] at this

theorem cls : Statement .cls := by unfold Statement; decide
theorem ret : Statement .ret := by unfold Statement; decide
theorem jp (nnn : Addr) : Statement (.jp nnn) := addr_row _ _ _ rfl
theorem call (nnn : Addr) : Statement (.call nnn) := addr_row _ _ _ rfl
theorem seImm (x : Nibble) (kk : Byte) : Statement (.seImm x kk) := imm_row _ _ _ _ rfl
theorem sneImm (x : Nibble) (kk : Byte) : Statement (.sneImm x kk) := imm_row _ _ _ _ rfl
theorem seReg (x y : Nibble) : Statement (.seReg x y) := reg_row _ _ _ _ _ rfl
theorem sneReg (x y : Nibble) : Statement (.sneReg x y) := reg_row _ _ _ _ _ rfl
theorem ldImm (x : Nibble) (kk : Byte) : Statement (.ldImm x kk) := imm_row _ _ _ _ rfl
theorem addImm (x : Nibble) (kk : Byte) : Statement (.addImm x kk) := imm_row _ _ _ _ rfl
theorem ldReg (x y : Nibble) : Statement (.ldReg x y) := reg_row _ _ _ _ _ rfl
theorem orReg (x y : Nibble) : Statement (.orReg x y) := reg_row _ _ _ _ _ rfl
theorem andReg (x y : Nibble) : Statement (.andReg x y) := reg_row _ _ _ _ _ rfl
theorem xorReg (x y : Nibble) : Statement (.xorReg x y) := reg_row _ _ _ _ _ rfl
theorem addReg (x y : Nibble) : Statement (.addReg x y) := reg_row _ _ _ _ _ rfl
theorem sub (x y : Nibble) : Statement (.sub x y) := reg_row _ _ _ _ _ rfl
theorem shr (x y : Nibble) : Statement (.shr x y) := reg_row _ _ _ _ _ rfl
theorem subn (x y : Nibble) : Statement (.subn x y) := reg_row _ _ _ _ _ rfl
theorem shl (x y : Nibble) : Statement (.shl x y) := reg_row _ _ _ _ _ rfl
theorem ldI (nnn : Addr) : Statement (.ldI nnn) := addr_row _ _ _ rfl
theorem jpV0 (nnn : Addr) : Statement (.jpV0 nnn) := addr_row _ _ _ rfl
theorem rnd (x : Nibble) (kk : Byte) : Statement (.rnd x kk) := imm_row _ _ _ _ rfl
theorem drw (x y n : Nibble) : Statement (.drw x y n) := by
  have := matches_packNibbles 0xD x y n 0
  rwa [and_none] at this
theorem skp (x : Nibble) : Statement (.skp x) := fun_row _ _ _ _ rfl
theorem sknp (x : Nibble) : Statement (.sknp x) := fun_row _ _ _ _ rfl
theorem ldVxDt (x : Nibble) : Statement (.ldVxDt x) := fun_row _ _ _ _ rfl
theorem ldDtVx (x : Nibble) : Statement (.ldDtVx x) := fun_row _ _ _ _ rfl
theorem ldStVx (x : Nibble) : Statement (.ldStVx x) := fun_row _ _ _ _ rfl
theorem ldVxK (x : Nibble) : Statement (.ldVxK x) := fun_row _ _ _ _ rfl
theorem addI (x : Nibble) : Statement (.addI x) := fun_row _ _ _ _ rfl
theorem ldF (x : Nibble) : Statement (.ldF x) := fun_row _ _ _ _ rfl
theorem ldB (x : Nibble) : Statement (.ldB x) := fun_row _ _ _ _ rfl
theorem stRegs (x : Nibble) : Statement (.stRegs x) := fun_row _ _ _ _ rfl
theorem ldRegs (x : Nibble) : Statement (.ldRegs x) := fun_row _ _ _ _ rfl

end Sys2Proof.Laws.MaskMatch
end

