-- ==== Sys2Proof/Tests/Slice0.lean ====
section
/-!
SUPPORT. Tests of single steps, from the vectors of 95_test_vectors.md (the section and row, or the rule, is named above
each), the checks of WellFormed on ill-formed terms, and for every statement with hypotheses a state that meets them.
-/
namespace Sys2Proof.Tests

open Machine

/-- A view of the state after one step that runs the word `op` from `s`. -/
def look {α : Type} (op : Word) (s : State) (view : State → α) : Option α := (nextOf (step (s.placeWord op))).map view

/-- The fault of one step that runs the word `op` from `s`. -/
def trap (op : Word) (s : State) : Option Fault := faultOf (step (s.placeWord op))

/-- Reset with two registers set. -/
def two (x : Nibble) (a : Byte) (y : Nibble) (b : Byte) : State := (State.reset.setReg x a).setReg y b

/-- Reset with I set. -/
def atI (w : Word) : State := State.reset.setIreg w

/-- A stack of `n` entries, each 0x20A. -/
def stacked (n : Fin 17) : State := { State.reset with stack := Vector.replicate 16 0x20A, sp := n }

/-! ## WellFormed refuses ill-formed terms; the opcode map is well formed -/

theorem test_opRow_refuses_bit_outside_mask : OpRow.wellFormed ⟨0xF000, 0x1001⟩ = false := by decide
theorem test_opMap_refuses_overlap : opMapWellFormed [⟨0xF00F, 0x8000⟩, ⟨0xF0F0, 0x8010⟩] = false := by decide
theorem test_image_refuses_3585 : imageWellFormed (List.replicate 3585 0) = false := by
  rw [imageWellFormed, List.length_replicate]; decide
theorem test_image_accepts_3584 : imageWellFormed (List.replicate 3584 0) = true := by
  rw [imageWellFormed, List.length_replicate]; decide
theorem test_opcodeMap_well_formed : opMapWellFormed opcodeMap = true := by decide
theorem test_opcodeMap_has_34_rows : opcodeMap.length = 34 := by decide

/-! ## Decoding: words written out from 30_encoding.md R64 and 95_test_vectors.md 2.1 -/

theorem test_decode_control :
    [0x00E0#16, 0x00EE, 0x10E0, 0x2ABC, 0x3F00, 0x4211, 0x5AB0, 0x9AB0, 0xB123].map decode =
      [some .cls, some .ret, some (.jp 0x0E0), some (.call 0xABC), some (.seImm 0xF 0x00), some (.sneImm 2 0x11),
        some (.seReg 0xA 0xB), some (.sneReg 0xA 0xB), some (.jpV0 0x123)] := by decide
theorem test_decode_alu :
    [0x6A2B#16, 0x71FF, 0x8AF0, 0x8011, 0x8012, 0x8013, 0x8014, 0x8015, 0x8AB6, 0x8017, 0x8ABE, 0xCA0F].map decode =
      [some (.ldImm 0xA 0x2B), some (.addImm 1 0xFF), some (.ldReg 0xA 0xF), some (.orReg 0 1), some (.andReg 0 1),
        some (.xorReg 0 1), some (.addReg 0 1), some (.sub 0 1), some (.shr 0xA 0xB), some (.subn 0 1),
        some (.shl 0xA 0xB), some (.rnd 0xA 0x0F)] := by decide
theorem test_decode_memory_display :
    [0xA300#16, 0xF11E, 0xF129, 0xF133, 0xF155, 0xF165, 0xD125, 0xD120].map decode =
      [some (.ldI 0x300), some (.addI 1), some (.ldF 1), some (.ldB 1), some (.stRegs 1), some (.ldRegs 1),
        some (.drw 1 2 5), some (.drw 1 2 0)] := by decide
theorem test_decode_keypad_timers :
    [0xE19E#16, 0xE1A1, 0xF107, 0xF10A, 0xF115, 0xF118].map decode =
      [some (.skp 1), some (.sknp 1), some (.ldVxDt 1), some (.ldVxK 1), some (.ldDtVx 1), some (.ldStVx 1)] := by decide
theorem test_decode_unknown :
    [0x0000#16, 0x00E1, 0x01E0, 0x0FFF, 0x5AB1, 0x8AB8, 0x8ABF, 0x9AB1, 0xE19F, 0xE100, 0xF100, 0xF175, 0xFFFF].map decode =
      List.replicate 13 none := by decide
/-- 95 2.1, byte order: 0x12, 0x34 is the word 0x1234. -/
theorem test_decodeBytes_big_endian :
    (match decodeBytes [0x12, 0x34, 0x00] with
      | .ok (i, rest) => some (i, rest.length)
      | .error _ => none) = some (.jp 0x234, 1) := by decide
theorem test_decodeBytes_errors :
    (match decodeBytes [0xFF, 0xFF], decodeBytes [0x12] with
      | .error e, .error e' => some (e, e')
      | _, _ => none) = some (.unknownOpcode 0xFFFF, .truncated) := by decide
theorem test_decodeTableWord : decodeTableWord 16 0xD125 = some (.drw 1 2 5) := by decide
theorem test_withFetchWord_runs :
    (nextOf (step (State.reset.withFetchWord 16 0x6A2B))).map (fun t => (t.reg 0xA, t.pc)) = some (0x2B, 0x202) := by decide

/-! ## Control transfer (95 2.2) -/

/-- Row 11. -/
theorem test_ret : look 0x00EE (stacked 1) (fun t => (t.sp.val, t.pc, t.stack[0])) = some (0, 0x20A, 0x20A) := by decide
/-- Row 12. -/
theorem test_ret_underflow : trap 0x00EE (State.reset.setPc 0x210) = some (.stackUnderflow 0x210 0x00EE) := by decide
/-- Row 1. -/
theorem test_jp : look 0x1234 State.reset (·.pc) = some 0x234 := by decide
/-- Row 4. -/
theorem test_jp_odd : trap 0x1201 State.reset = some (.pcAlignment 0x200 0x1201 0x201) := by decide
/-- Row 5. -/
theorem test_call :
    look 0x220C (State.reset.setPc 0x208) (fun t => (t.stack[0], t.sp.val, t.pc)) = some (0x20A, 1, 0x20C) := by decide
/-- Row 8: overflow before alignment. -/
theorem test_call_overflow : trap 0x2401 ((stacked 16).setPc 0x300) = some (.stackOverflow 0x300 0x2401) := by decide
/-- S6. -/
theorem test_se_imm : look 0x3142 (State.reset.setReg 1 0x42) (·.pc) = some 0x204 := by decide
/-- Row 19: the skip leaves the address space, with no fault here. -/
theorem test_se_imm_top : look 0x3000 (State.reset.setPc 0xFFE) (·.pc) = some 0x1002 := by decide
/-- S6, both conditions. -/
theorem test_sne_imm :
    (look 0x4142 (State.reset.setReg 1 0x43) (·.pc), look 0x4142 (State.reset.setReg 1 0x42) (·.pc)) =
      (some 0x204, some 0x202) := by decide
/-- S6, both conditions. -/
theorem test_se_reg :
    (look 0x5120 (two 1 7 2 7) (·.pc), look 0x5120 (two 1 7 2 8) (·.pc)) = (some 0x204, some 0x202) := by decide
/-- S6, both conditions. -/
theorem test_sne_reg :
    (look 0x9120 (two 1 7 2 8) (·.pc), look 0x9120 (two 1 7 2 7) (·.pc)) = (some 0x204, some 0x202) := by decide
/-- Row 17: the sum is not reduced. -/
theorem test_jp_v0 : look 0xBFFF (State.reset.setReg 0 0xFF) (·.pc) = some 0x10FE := by decide
/-- Row 18. -/
theorem test_jp_v0_odd : trap 0xBFFE (State.reset.setReg 0 0xFF) = some (.pcAlignment 0x200 0xBFFE 0x10FD) := by decide

/-! ## Register loads and ALU (95 2.3) -/

/-- Row 1. -/
theorem test_ld_imm : look 0x6A2B State.reset (fun t => (t.reg 0xA, t.pc)) = some (0x2B, 0x202) := by decide
/-- Row 3: no carry flag. -/
theorem test_add_imm_wraps : look 0x7001 (State.reset.setReg 0 0xFF) (fun t => (t.reg 0, t.reg 0xF)) = some (0, 0) := by decide
/-- Row 7. -/
theorem test_ld_reg : look 0x8AF0 (State.reset.setReg 0xF 1) (·.reg 0xA) = some 1 := by decide
/-- Row 8: VF unchanged. -/
theorem test_or : look 0x8011 ((two 0 0xF0 1 0x0F).setReg 0xF 1) (fun t => (t.reg 0, t.reg 0xF)) = some (0xFF, 1) := by decide
/-- Row 9. -/
theorem test_and : look 0x8012 ((two 0 0xF0 1 0x3C).setReg 0xF 1) (fun t => (t.reg 0, t.reg 0xF)) = some (0x30, 1) := by decide
/-- Row 10. -/
theorem test_xor : look 0x8013 ((two 0 0xF0 1 0x3C).setReg 0xF 1) (fun t => (t.reg 0, t.reg 0xF)) = some (0xCC, 1) := by decide
/-- S2. -/
theorem test_add_reg_carry : look 0x8014 (two 0 0xFF 1 1) (fun t => (t.reg 0, t.reg 0xF)) = some (0, 1) := by decide
/-- Row 17: with x = 0xF the result overwrites the carry. -/
theorem test_add_reg_vf : look 0x8F14 (two 0xF 0xF0 1 0x20) (·.reg 0xF) = some 0x10 := by decide
/-- S3. -/
theorem test_sub_borrow : look 0x8015 (two 0 3 1 5) (fun t => (t.reg 0, t.reg 0xF)) = some (0xFE, 0) := by decide
/-- Row 25: with y = 0xF the old VF is the operand. -/
theorem test_sub_vf : look 0x80F5 (two 0 5 0xF 3) (fun t => (t.reg 0, t.reg 0xF)) = some (2, 1) := by decide
/-- S4 and row 32: V[y] is not read. -/
theorem test_shr : look 0x8016 (two 0 3 1 0xFF) (fun t => (t.reg 0, t.reg 1, t.reg 0xF)) = some (1, 0xFF, 1) := by decide
/-- Rows 26 and 28. -/
theorem test_subn :
    (look 0x8017 (two 0 3 1 5) (fun t => (t.reg 0, t.reg 0xF)), look 0x8017 (two 0 4 1 4) (fun t => (t.reg 0, t.reg 0xF))) =
      (some (2, 1), some (0, 1)) := by decide
/-- Row 35. -/
theorem test_shl : look 0x820E (State.reset.setReg 2 0x81) (fun t => (t.reg 2, t.reg 0xF)) = some (2, 1) := by decide
/-- Row 39: x = 0xF. -/
theorem test_shl_vf : look 0x8F0E (State.reset.setReg 0xF 0x81) (·.reg 0xF) = some 2 := by decide
/-- Row 43: the free byte ANDed with kk; one input is drawn. -/
theorem test_rnd : look 0xC3F0 State.reset (fun t => (t.reg 3, t.inputs)) = some (Config.randByte 0 &&& 0xF0, 1) := by rfl

/-! ## Index register and memory (95 2.4) -/

/-- Row 2. -/
theorem test_ld_i : look 0xAFFF (atI 0xF123) (·.ireg) = some 0x0FFF := by decide
/-- Row 5: 16-bit wrap. -/
theorem test_add_i_wraps : look 0xF21E ((atI 0xFFFF).setReg 2 1) (fun t => (t.ireg, t.reg 0xF)) = some (0, 0) := by decide
/-- Row 11: not masked to a nibble. -/
theorem test_ld_f : look 0xF229 (State.reset.setReg 2 0xFF) (·.ireg) = some 0x04FB := by decide
/-- S7. -/
theorem test_ld_b :
    look 0xF033 ((atI 0x300).setReg 0 0x9C) (fun t => t.mem.readBytes 0x300 3) = some [1, 5, 6] := by decide
/-- Row 19. -/
theorem test_ld_b_fault : trap 0xF033 ((atI 0xFFE).setReg 0 123) = some (.dataAddress 0x200 0xF033 0x1000) := by decide
/-- Row 20. -/
theorem test_st_regs :
    look 0xF155 ((two 0 0x11 1 0x22).setIreg 0x300) (fun t => (t.mem.readBytes 0x300 3, t.ireg)) =
      some ([0x11, 0x22, 0], 0x300) := by decide
/-- Row 23. -/
theorem test_st_regs_fault : trap 0xFF55 (atI 0xFF1) = some (.dataAddress 0x200 0xFF55 0x1000) := by decide
/-- Row 26. -/
theorem test_ld_regs :
    look 0xF265 (((atI 0x300).store 0x300 [1, 5, 6]).setReg 3 0x44) (fun t => [t.reg 0, t.reg 1, t.reg 2, t.reg 3]) =
      some [1, 5, 6, 0x44] := by decide
/-- Row 27, on the default fontset: glyph 0. -/
theorem test_ld_regs_font : look 0xF465 State.reset (fun t => (t.reg 0, t.reg 1, t.reg 4)) = some (0xF0, 0x90, 0xF0) := by decide
/-- A byte stored at its reset value is not listed: equal memories are equal lists. -/
theorem test_memory_canonical : Memory.write (Memory.write [] 0x300 5) 0x300 0 = [] := by decide

/-! ## Display (95 2.5) -/

/-- Row 1: VF unchanged. -/
theorem test_cls :
    look 0x00E0 ((State.reset.setFb (Framebuffer.toggle State.reset.fb 31 63)).setReg 0xF 1)
      (fun t => (t.pixel 31 63, t.reg 0xF)) = some (false, 1) := by decide
/-- Rows 2 and 3: bit 7 is column 0, bit 0 column 7. -/
theorem test_drw_bit_order :
    look 0xD011 ((atI 0x300).store 0x300 [0x81])
      (fun t => (t.pixel 0 0, t.pixel 0 1, t.pixel 0 6, t.pixel 0 7, t.reg 0xF)) =
      some (true, false, false, true, 0) := by decide
/-- Row 12: one collision is enough. -/
theorem test_drw_collision :
    look 0xD011 (((atI 0x300).store 0x300 [0xC0]).setFb (Framebuffer.toggle State.reset.fb 0 0))
      (fun t => (t.pixel 0 0, t.pixel 0 1, t.reg 0xF)) = some (false, true, 1) := by decide
/-- Row 10: all or nothing. -/
theorem test_drw_bounds :
    trap 0xD012 (((atI 0x300).store 0x300 [0x80, 0x80]).setReg 1 31) = some (.displayBounds 0x200 0xD012 0 32) := by decide
/-- Row 17: the address check comes first. -/
theorem test_drw_address : trap 0xD011 ((atI 0x1000).setReg 0 0xFF) = some (.dataAddress 0x200 0xD011 0x1000) := by decide
/-- Row 14: no rows, no fault, VF 0. -/
theorem test_drw_no_rows :
    look 0xD010 (((two 0 0xFF 1 0xFF).setIreg 0xFFFF).setReg 0xF 1) (fun t => (t.reg 0xF, t.pc)) = some (0, 0x202) := by decide

/-! ## Keypad and timers (95 2.6) -/

/-- Rows 1 and 2: either level. -/
theorem test_skp :
    look 0xE39E ((State.reset.setReg 3 0xA).setPc 0x202) (fun t => (t.pc, t.inputs)) =
      some (0x202 + (if Config.keyHeld 0 0xA then 4 else 2), 1) := by rfl
/-- Row 5. -/
theorem test_skp_fault : trap 0xE39E (State.reset.setReg 3 0x10) = some (.keyIndex 0x200 0xE39E 0x10) := by decide
/-- Rows 3 and 4: either level. -/
theorem test_sknp :
    look 0xE3A1 (State.reset.setReg 3 0xA) (fun t => (t.pc, t.inputs)) =
      some (0x200 + (if !Config.keyHeld 0 0xA then 4 else 2), 1) := by rfl
/-- Row 6. -/
theorem test_sknp_fault : trap 0xE3A1 (State.reset.setReg 3 0xFF) = some (.keyIndex 0x200 0xE3A1 0xFF) := by decide
/-- Row 9. -/
theorem test_ld_vx_dt : look 0xFF07 (State.reset.setDt 9) (fun t => (t.reg 0xF, t.dt)) = some (9, 8) := by decide
/-- Row 10, and row 11: the tick acts on the value just written. -/
theorem test_ld_dt_vx :
    (look 0xFC15 (State.reset.setReg 0xC 3) (·.dt), look 0xF015 (State.reset.setReg 0 1) (·.dt)) = (some 2, some 0) := by decide
/-- Rows 14 and 15. -/
theorem test_ld_st_vx :
    (look 0xF518 (State.reset.setReg 5 4) (fun t => (t.st, toneActive t)), look 0xF518 (State.reset.setReg 5 1) toneActive) =
      (some (3, true), some false) := by decide
/-- Row 19. -/
theorem test_ld_vx_k :
    look 0xF30A (State.reset.setDt 5) (fun t => (t.rs, t.kx, t.pc, t.dt)) = some (.awaitKey, 3, 0x200, 5) := by decide
/-- Row 21. -/
theorem test_key_press :
    look 0xF30A (State.reset.setDt 5) (fun t => ((keyPress 0xA t).reg 3, (keyPress 0xA t).pc, (keyPress 0xA t).dt,
      awaitingInput (keyPress 0xA t))) = some (0xA, 0x202, 4, false) := by decide
/-- Row 23. -/
theorem test_key_press_discarded : keyPress 5 State.reset = State.reset := by rfl

/-! ## The cycle and load -/

/-- S9 with both timers running. -/
theorem test_unknown_opcode :
    look 0xFFFF ((State.reset.setDt 2).setSt 1) (fun t => (t.pc, t.dt, t.st)) = some (0x202, 1, 0) := by decide
/-- S9: the report. -/
theorem test_unknown_report : (cycle (State.reset.placeWord 0xFFFF)).report = some ⟨0xFFFF, 0x200⟩ := by decide
/-- 2.2 row 13. -/
theorem test_fetch_fault : faultOf (step (State.reset.setPc 0x1000)) = some (.fetchAddress 0x1000) := by decide
/-- 2.2 row 20: fetch at 0xFFE is legal. -/
theorem test_fetch_last_word : look 0x6000 (State.reset.setPc 0xFFE) (·.pc) = some 0x1000 := by decide
/-- S1. -/
theorem test_load :
    ((load [0x12, 0x00] (stacked 3)).2.readByte 0x200, (load [0x12, 0x00] (stacked 3)).2.sp.val,
      (load [0x12, 0x00] (stacked 3)).2.fetch) = (0x12, 0, some 0x1200) := by decide
/-- 2.7 row 2. -/
theorem test_load_too_large :
    load (List.replicate 3585 0) (State.reset.setReg 0 9) = (.programTooLarge, State.reset.setReg 0 9) := by
  rw [load, test_image_refuses_3585]; rfl

/-! ## The hypotheses of the statements can be met: for each statement that has any, states and operands that meet them
together, and for each clause one at a boundary of its range -/

/-- Reset with the word `op` placed where the next step fetches it. -/
def ready (op : Word) : State := State.reset.placeWord op

/-- A wait for a key into V3, with `Fx0A` at PC. -/
def waiting : State := (ready 0xF30A).beginWait 3

/-- A one-byte sprite 0xC0 at I = 0x300. -/
def sprite : State := (atI 0x300).store 0x300 [0xC0]

theorem witness_DecodeIsFullMatch :
    decode 0xF165 = some (.ldRegs 1) ∧ (opRow (.ldRegs 1)).matches 0xF165 = true ∧ decode 0x5AB1 = none ∧
      ∀ r ∈ opcodeMap, r.matches 0x5AB1 = false := by decide
theorem witness_UnknownOpcodeWords :
    fieldMajor 0x00EE = 0x0 ∧ fieldMajor 0x01E0 = 0x0 ∧ fieldMajor 0x5AB0 = 0x5 ∧ fieldMajor 0x9AB1 = 0x9 ∧
      fieldMajor 0x8ABF = 0x8 ∧ fieldMajor 0xE19E = 0xE ∧ fieldMajor 0xF165 = 0xF ∧
      fieldMajor 0xD120 ∉ ([0x0, 0x5, 0x8, 0x9, 0xE, 0xF] : List Nibble) := by decide
theorem witness_ShiftIgnoresVy : (1 : Nibble) ≠ 0 ∧ (1 : Nibble) ≠ 0xF := by decide
theorem witness_StepRunsDecodedInstruction :
    (ready 0x6A2B).rs = .run ∧ (ready 0x6A2B).fetch = some 0x6A2B ∧ decode 0x6A2B = some (.ldImm 0xA 0x2B) ∧
      (Instr.ldImm 0xA 0x2B).wellFormed = true := by decide
theorem witness_FetchIsBigEndian :
    (State.reset.setPc 0xFFE).pc.toNat ≤ 0xFFE ∧ 0xFFE < (State.reset.setPc 0xFFF).pc.toNat ∧
      (State.reset.setPc 0xFFF).rs = .run := by decide
theorem witness_UnknownOpcodeReportsAndAdvances :
    (ready 0xFFFF).rs = .run ∧ (ready 0xFFFF).fetch = some 0xFFFF ∧ decode 0xFFFF = none := by decide
theorem witness_FetchSeesStores :
    Memory.wf (atI 0x300).mem = true ∧ ∃ t, exec (.stRegs 1) (atI 0x300) = .next t ∧ 0 + 1 ≤ (1 : Nibble).toNat ∧
      (t.setPc 0x300).mem = t.mem ∧ (t.setPc 0x300).pc.toNat = (atI 0x300).ireg.toNat + 0 :=
  ⟨by decide, _, rfl, by decide, rfl, by decide⟩
/-- An instruction that ticks, `Fx0A`, an unknown opcode, a wait. -/
theorem witness_TimersTickOncePerCycle :
    ((ready 0x6A2B).rs = .run ∧ (ready 0x6A2B).fetch = some 0x6A2B ∧ decode 0x6A2B = some (.ldImm 0xA 0x2B) ∧
      (∃ u, exec (.ldImm 0xA 0x2B) (ready 0x6A2B) = .next u) ∧ ∃ t, step (ready 0x6A2B) = .next t) ∧
    ((ready 0xF30A).rs = .run ∧ (ready 0xF30A).fetch = some 0xF30A ∧ decode 0xF30A = some (.ldVxK 3) ∧
      (∃ u, exec (.ldVxK 3) (ready 0xF30A) = .next u) ∧ ∃ t, step (ready 0xF30A) = .next t) ∧
    ((ready 0xFFFF).rs = .run ∧ (ready 0xFFFF).fetch = some 0xFFFF ∧ decode 0xFFFF = none ∧ ∃ t, step (ready 0xFFFF) = .next t) ∧
    (waiting.rs = .awaitKey ∧ ∃ t, (cycle waiting).outcome = .next t) :=
  ⟨⟨rfl, by decide, by decide, ⟨_, rfl⟩, ⟨_, rfl⟩⟩, ⟨rfl, by decide, by decide, ⟨_, rfl⟩, ⟨_, rfl⟩⟩,
    ⟨rfl, by decide, by decide, ⟨_, rfl⟩⟩, rfl, ⟨_, rfl⟩⟩
theorem witness_WaitingCycleDoesNothing : waiting.rs = .awaitKey := rfl
theorem witness_KeyPressCompletesWait : waiting.rs = .awaitKey ∧ State.reset.rs = .run := ⟨rfl, rfl⟩
theorem witness_LoadGivesPostLoadState : (List.replicate 3584 (0xFF : Byte)).length ≤ 3584 := by
  rw [List.length_replicate]
theorem witness_LoadRejectsOversized :
    3584 < (List.replicate 3585 (0 : Byte)).length ∧ (List.replicate 3584 (0 : Byte)).length ≤ 3584 ∧
      (List.replicate 3583 (0 : Byte)).length < 3584 := by
  rw [List.length_replicate, List.length_replicate, List.length_replicate]; decide
/-- A running state, and a waiting one. -/
theorem witness_StepKeepsInv :
    (StateInv State.reset ∧ ∃ t, step State.reset = .next t) ∧ StateInv waiting ∧ ∃ t, step waiting = .next t :=
  ⟨⟨by decide, _, rfl⟩, by decide, _, rfl⟩
/-- A load that resets a wait and one that is rejected, a cycle, a key press that ends a wait. -/
theorem witness_HostOperationsKeepInv :
    StateInv waiting ∧ StateInv State.reset ∧ (∃ t, applyOp (.load [0x12, 0x00]) waiting = .next t) ∧
      (∃ t, applyOp (.load (List.replicate 3585 0)) waiting = .next t) ∧ (∃ t, applyOp .cycle State.reset = .next t) ∧
      ∃ t, applyOp (.keyPress 5) waiting = .next t :=
  ⟨by decide, by decide, ⟨_, rfl⟩, ⟨_, rfl⟩, ⟨_, rfl⟩, _, rfl⟩
/-- A run that ends in a wait, entered by `F30A` from the image, with a key pressed before it. -/
theorem witness_ReachableStatesMeetInv :
    ([0xF3, 0x0A] : List Byte).length ≤ 3584 ∧
      ∃ t, runOps [.keyPress 5, .cycle] (load [0xF3, 0x0A] State.reset).2 = some t ∧ t.rs = .awaitKey :=
  ⟨by decide, _, rfl, by decide⟩
theorem witness_ExecKeepsMemoryCanonical :
    Memory.wf (atI 0xFFD).mem = true ∧ ∃ t, exec (.ldB 0) (atI 0xFFD) = .next t := ⟨by decide, _, rfl⟩
theorem witness_RetRule :
    State.reset.sp.val = 0 ∧ (stacked 1).sp.val = (0 : Fin 16).val + 1 ∧ (stacked 16).sp.val = (15 : Fin 16).val + 1 := by
  decide
theorem witness_JpRule : (0xFFE : Addr).toNat % 2 = 0 ∧ (0xFFF : Addr).toNat % 2 = 1 := by decide
theorem witness_CallRule :
    (stacked 16).sp.val = 16 ∧ ((stacked 15).sp.val < 16 ∧ (0xFFF : Addr).toNat % 2 = 1) ∧
      ((stacked 15).sp.val < 16 ∧ (0xFFE : Addr).toNat % 2 = 0) := by decide
theorem witness_JpV0Rule :
    ((0xFFF : Addr).toNat + ((State.reset.setReg 0 0xFF).reg 0).toNat) % 2 = 0 ∧
      ((0xFFE : Addr).toNat + ((State.reset.setReg 0 0xFF).reg 0).toNat) % 2 = 1 := by decide
theorem witness_SkipRules : (1 : Nibble) ≠ 0 := by decide
theorem witness_RetReturnsAfterCall :
    ∃ t, exec (.call 0x300) (stacked 15) = .next t ∧ StackKept t (t.setReg 0 7) := ⟨_, rfl, rfl, rfl⟩
theorem witness_CallsNestToSixteen :
    (∀ nnn ∈ List.replicate 16 (0x300 : Addr), nnn.toNat % 2 = 0) ∧
      State.reset.sp.val + (List.replicate 16 (0x300 : Addr)).length ≤ 16 ∧
      16 < (stacked 1).sp.val + (List.replicate 16 (0x300 : Addr)).length := by decide
theorem witness_FlagWriters :
    ∃ t, exec (.addReg 0 1) (two 0 0xFF 1 1) = .next t ∧ t.reg 0xF ≠ (two 0 0xFF 1 1).reg 0xF := ⟨_, rfl, by decide⟩
theorem witness_BcdRule :
    (Memory.wf (atI 0xFFD).mem = true ∧ (atI 0xFFD).ireg.toNat + 2 ≤ 0xFFF) ∧
      Memory.wf (atI 0xFFE).mem = true ∧ 0xFFF < (atI 0xFFE).ireg.toNat + 2 := by decide
theorem witness_StoreRegistersRule :
    (Memory.wf (atI 0xFF0).mem = true ∧ (atI 0xFF0).ireg.toNat + (0xF : Nibble).toNat ≤ 0xFFF) ∧
      Memory.wf (atI 0xFF1).mem = true ∧ 0xFFF < (atI 0xFF1).ireg.toNat + (0xF : Nibble).toNat := by decide
theorem witness_LoadRegistersRule :
    (atI 0xFFF).ireg.toNat + (0 : Nibble).toNat ≤ 0xFFF ∧ 0xFFF < (atI 0x1000).ireg.toNat + (0 : Nibble).toNat := by decide
theorem witness_StoreLoadRoundTrip :
    Memory.wf (atI 0xFFF).mem = true ∧ ∃ t, exec (.stRegs 0) (atI 0xFFF) = .next t ∧ (t.setReg 0 7).mem = t.mem ∧
      (t.setReg 0 7).ireg = (atI 0xFFF).ireg := ⟨by decide, _, rfl, rfl, rfl⟩
theorem witness_OnlyStoresChangeMemory :
    Memory.wf ((atI 0x300).setReg 0 7).mem = true ∧ ∃ t, exec (.stRegs 0) ((atI 0x300).setReg 0 7) = .next t ∧
      t.readByte 0x300 ≠ ((atI 0x300).setReg 0 7).readByte 0x300 := ⟨by decide, _, rfl, by decide⟩

/-! ### Display -/

/-- The set bits of the sprite 0xC0 are the columns 0 and 1 of its row 0. -/
theorem sprite_set {s : State} (h : s.readByte s.ireg.toNat = 0xC0) (r c : Nat) :
    spriteSet 1 s r c = true ↔ r = 0 ∧ (c = 0 ∨ c = 1) := by
  have hc : ∀ c < 8, (0xC0 : Byte).getLsbD (7 - c) = true ↔ c = 0 ∨ c = 1 := by decide
  constructor
  · intro hs
    simp only [spriteSet, Bool.and_eq_true, decide_eq_true_eq] at hs
    obtain ⟨⟨hr, h8⟩, hb⟩ := hs
    have hr0 : r = 0 := by simpa using hr
    subst hr0
    rw [Nat.add_zero, h] at hb
    exact ⟨rfl, (hc c h8).1 hb⟩
  · rintro ⟨rfl, hcc⟩
    have h8 : c < 8 := by omega
    simp only [spriteSet, Bool.and_eq_true, decide_eq_true_eq]
    exact ⟨⟨by decide, h8⟩, by rw [Nat.add_zero, h]; exact (hc c h8).2 hcc⟩

/-- The last place where the sprite 0xC0 fits is column 62 of row 31; it is drawn there on a set pixel, or on none. -/
theorem witness_DrawRule :
    let s := (sprite.setReg 0 62).setReg 1 31
    SpriteReadable 1 s ∧ SpriteInGrid 0 1 1 s ∧
      (∀ row col, spriteHits 0 1 1 s row col = true → s.pixel row col = false) ∧
      ∃ row col, spriteHits 0 1 1 (s.setFb (Framebuffer.toggle s.fb 31 63)) row col = true ∧
        (s.setFb (Framebuffer.toggle s.fb 31 63)).pixel row col = true := by
  refine ⟨.inr (by decide), ?_, ?_, 31, 63, by decide, by decide⟩
  · intro r c h
    obtain ⟨rfl, hc⟩ := (sprite_set (s := (sprite.setReg 0 62).setReg 1 31) (by decide) r c).1 h
    show 62 + c ≤ 63 ∧ 31 + 0 ≤ 31
    omega
  · intro row col h
    simp only [spriteHits, Bool.and_eq_true, decide_eq_true_eq] at h
    obtain ⟨⟨h1, h2⟩, h3⟩ := h
    obtain ⟨hr, hc⟩ := (sprite_set (s := (sprite.setReg 0 62).setReg 1 31) (by decide) _ _).1 h3
    have h1 : 31 ≤ row := h1
    have h2 : 62 ≤ col := h2
    have hr : row - 31 = 0 := hr
    have hc : col - 62 = 0 ∨ col - 62 = 1 := hc
    have : row = 31 := by omega
    subst this
    rcases (by omega : col = 62 ∨ col = 63) with rfl | rfl <;> decide
/-- The address fault at its least I; the bounds fault at column 64 of the second set bit. -/
theorem witness_DrawFaults :
    ((1 : Nibble) ≠ 0 ∧ 0xFFF < (atI 0x1000).ireg.toNat + (1 : Nibble).toNat - 1) ∧
      let s := (sprite.setReg 0 63).setReg 1 31
      SpriteReadable 1 s ∧ spriteSet 1 s 0 1 = true ∧ ¬((s.reg 0).toNat + 1 ≤ 63 ∧ (s.reg 1).toNat + 0 ≤ 31) ∧
        ∀ r' c', spriteSet 1 s r' c' = true → r' < 0 ∨ r' = 0 ∧ c' < 1 →
          (s.reg 0).toNat + c' ≤ 63 ∧ (s.reg 1).toNat + r' ≤ 31 := by
  refine ⟨by decide, .inr (by decide), by decide, by decide, ?_⟩
  intro r' c' _ h
  show 63 + c' ≤ 63 ∧ 31 + r' ≤ 31
  omega
/-- A first draw on a blank screen and one on the sprite itself: either value of VF in the second draw. -/
theorem witness_DrawTwiceRestores :
    ((0 : Nibble) ≠ 0xF ∧ (1 : Nibble) ≠ 0xF) ∧ (∃ t, exec (.drw 0 1 1) sprite = .next t) ∧
      (∃ row col, spriteHits 0 1 1 sprite row col = true ∧ sprite.pixel row col = false) ∧
      let s := sprite.setFb (Framebuffer.toggle (Framebuffer.toggle sprite.fb 0 0) 0 1)
      (∃ t, exec (.drw 0 1 1) s = .next t) ∧
        ∀ row col, spriteHits 0 1 1 s row col = true → s.pixel row col = true := by
  refine ⟨by decide, ⟨_, rfl⟩, ⟨0, 0, by decide, by decide⟩, ⟨_, rfl⟩, ?_⟩
  intro row col h
  simp only [spriteHits, Bool.and_eq_true, decide_eq_true_eq] at h
  obtain ⟨-, h3⟩ := h
  obtain ⟨hr, hc⟩ := (sprite_set (s := sprite.setFb _) (by decide) _ _).1 h3
  have hr : row - 0 = 0 := hr
  have hc : col - 0 = 0 ∨ col - 0 = 1 := hc
  have : row = 0 := by omega
  subst this
  rcases (by omega : col = 0 ∨ col = 1) with rfl | rfl <;> decide
theorem witness_DrawCountsSetCells : ∃ t, exec (.drw 0 1 1) sprite = .next t := ⟨_, rfl⟩
theorem witness_OnlyClearAndDrawChangeScreen : ∃ t, exec (.drw 0 1 1) sprite = .next t ∧ t.fb ≠ sprite.fb :=
  ⟨_, rfl, by decide⟩

/-! ### Keypad, timers, the whole machine -/

theorem witness_KeySkipRules :
    ((State.reset.setReg 3 15).reg 3).toNat ≤ 15 ∧ 15 < ((State.reset.setReg 3 16).reg 3).toNat := by decide
theorem witness_KeyWaitRule : AtInstr (.ldVxK 3) (ready 0xF30A) := ⟨rfl, by decide⟩
theorem witness_TimerMoveRules :
    AtInstr (.ldVxDt 1) (ready 0xF107) ∧ AtInstr (.ldDtVx 1) (ready 0xF115) ∧ AtInstr (.ldStVx 1) (ready 0xF118) :=
  ⟨⟨rfl, by decide⟩, ⟨rfl, by decide⟩, rfl, by decide⟩
/-- `FC15` at 0x200 and `FF07` at 0x202, with V12 = 3. -/
theorem witness_TimerPollAfterWrite :
    let s := (State.reset.store 0x200 [0xFC, 0x15, 0xFF, 0x07]).setReg 0xC 3
    AtInstr (.ldDtVx 0xC) s ∧ ∃ t, step s = .next t ∧ AtInstr (.ldVxDt 0xF) t ∧ ∃ u, step t = .next u :=
  ⟨⟨rfl, by decide⟩, _, rfl, ⟨rfl, by decide⟩, _, rfl⟩
theorem witness_PcAfterEachInstruction : ∃ t, exec .ret (stacked 16) = .next t := ⟨_, rfl⟩
theorem witness_PcStaysEven :
    (stacked 16).pc.toNat % 2 = 0 ∧ (∀ k : Fin 16, k.val < (stacked 16).sp.val → (stacked 16).stack[k.val].toNat % 2 = 0) ∧
      ∃ t, exec .ret (stacked 16) = .next t := ⟨by decide, by decide, _, rfl⟩
theorem witness_OnlyCallAndRetChangeStack :
    ∃ t, exec (.call 0x300) (stacked 15) = .next t ∧ t.stack ≠ (stacked 15).stack ∧ t.sp ≠ (stacked 15).sp :=
  ⟨_, rfl, by decide, by decide⟩
/-- One fault with a word, and the one without. -/
theorem witness_FaultEventNamesPcAndWord :
    step (ready 0x00EE) = .fault (.stackUnderflow 0x200 0x00EE) ∧
      step (State.reset.setPc 0xFFF) = .fault (.fetchAddress 0xFFF) := ⟨rfl, rfl⟩
theorem witness_SoundTimerIsNotRead : ∃ x, (Instr.ldStVx 5) = .ldStVx x := ⟨5, rfl⟩
theorem witness_ScreenIsSeenOnlyByDraw : ∀ x y n, Instr.cls ≠ .drw x y n := by intro x y n h; cases h
theorem witness_KeyboardMapping : logicalKey 'V' = some 0xF ∧ logicalKey 'P' = none := by decide

end Sys2Proof.Tests
end

section
/-!
PROOFS. What an instruction that completes leaves unchanged, and where it leaves PC and the live stack entries: one lemma
per part of the state, each from `exec_next`.
-/
namespace Sys2Proof.Machine

variable {i : Instr} {s t : State}

/-! ## Jump targets (40_control_transfer.md R81, R82, R87) -/

@[simp] theorem addrTarget_toNat (nnn : Addr) : (addrTarget nnn).toNat = nnn.toNat := by
  rw [addrTarget, BitVec.toNat_setWidth_of_le (by decide)]

/-- The sum is never reduced: it is at most 0x10FE. -/
@[simp] theorem indexedTarget_toNat (nnn : Addr) (s : State) :
    (indexedTarget nnn s).toNat = nnn.toNat + (s.reg 0).toNat := by
  have := nnn.isLt
  have := (s.reg 0).isLt
  rw [indexedTarget, BitVec.toNat_ofNat, Nat.mod_eq_of_lt (by omega)]

theorem isOdd_eq_false_iff (w : Word) : isOdd w = false ↔ w.toNat % 2 = 0 := by
  rw [isOdd_eq, decide_eq_false_iff_not]; omega

/-! ## Frames of the execute stage -/

/-- Only `call` and `ret` touch the stack (10_state.md R20). -/
theorem exec_stackKept (h : exec i s = .next t) (hcall : ∀ nnn, i ≠ .call nnn) (hret : i ≠ .ret) : StackKept s t := by
  cases i with
  | ret => exact absurd rfl hret
  | call nnn => exact absurd rfl (hcall nnn)
  | jp | jpV0 | skp | sknp | ldB | stRegs => obtain ⟨-, rfl⟩ := exec_next h; exact ⟨rfl, rfl⟩
  | drw => obtain ⟨-, -, rfl⟩ := exec_next h; exact ⟨rfl, rfl⟩
  | ldRegs => obtain ⟨-, rfl⟩ := exec_next h; exact ⟨State.loadRegs_sp .., State.loadRegs_stack ..⟩
  | _ => cases exec_next h; exact ⟨rfl, rfl⟩

/-- Only `cls` and `drw` touch the framebuffer (10_state.md R24). -/
theorem exec_fb (h : exec i s = .next t) (hcls : i ≠ .cls) (hdrw : ∀ x y n, i ≠ .drw x y n) : t.fb = s.fb := by
  cases i with
  | cls => exact absurd rfl hcls
  | drw x y n => exact absurd rfl (hdrw x y n)
  | ret | jp | jpV0 | skp | sknp | ldB | stRegs => obtain ⟨-, rfl⟩ := exec_next h; rfl
  | call => obtain ⟨-, -, rfl⟩ := exec_next h; exact State.push_fb ..
  | ldRegs => obtain ⟨-, rfl⟩ := exec_next h; exact State.loadRegs_fb ..
  | _ => cases exec_next h; rfl

/-- Only `ldVxK` touches RS (60_exceptions.md R185). -/
theorem exec_rs (h : exec i s = .next t) (hk : ∀ x, i ≠ .ldVxK x) : t.rs = s.rs := by
  cases i with
  | ldVxK x => exact absurd rfl (hk x)
  | ret | jp | jpV0 | skp | sknp | ldB | stRegs => obtain ⟨-, rfl⟩ := exec_next h; rfl
  | call => obtain ⟨-, -, rfl⟩ := exec_next h; exact State.push_rs ..
  | drw => obtain ⟨-, -, rfl⟩ := exec_next h; rfl
  | ldRegs => obtain ⟨-, rfl⟩ := exec_next h; exact State.loadRegs_rs ..
  | _ => cases exec_next h; rfl

/-- Only `ldB` and `stRegs` touch memory (20_memory.md R44). -/
theorem exec_mem (h : exec i s = .next t) (hb : ∀ x, i ≠ .ldB x) (hst : ∀ x, i ≠ .stRegs x) : t.mem = s.mem := by
  cases i with
  | ldB x => exact absurd rfl (hb x)
  | stRegs x => exact absurd rfl (hst x)
  | ret | jp | jpV0 | skp | sknp => obtain ⟨-, rfl⟩ := exec_next h; rfl
  | call => obtain ⟨-, -, rfl⟩ := exec_next h; exact State.push_mem ..
  | drw => obtain ⟨-, -, rfl⟩ := exec_next h; rfl
  | ldRegs => obtain ⟨-, rfl⟩ := exec_next h; exact State.loadRegs_mem ..
  | _ => cases exec_next h; rfl

/-- The two stores stay inside memory, so they keep its canonical form. -/
theorem exec_wf (h : exec i s = .next t) (hm : Memory.wf s.mem = true) : Memory.wf t.mem = true := by
  cases i with
  | ldB | stRegs =>
    obtain ⟨hle, rfl⟩ := exec_next h
    exact Memory.wf_writeBytes hm _ (by simpa using hle)
  | _ => rwa [exec_mem h (fun _ => nofun) (fun _ => nofun)]

/-! ## The stack of the next state -/

theorem exec_call_stack {nnn : Addr} (h : exec (.call nnn) s = .next t) :
    t.sp.val = s.sp.val + 1 ∧ ∀ k : Fin 16, t.stack[k.val] = if k.val = s.sp.val then s.pc + 2 else s.stack[k.val] := by
  obtain ⟨hsp, -, rfl⟩ := exec_next h
  exact ⟨State.push_sp hsp _, fun k => State.push_stack hsp _ k k.isLt⟩

/-- A live entry after an instruction was live before it, or is the return address a `call` has pushed. -/
theorem exec_live_entry (h : exec i s = .next t) (k : Fin 16) (hk : k.val < t.sp.val) :
    (k.val < s.sp.val ∧ t.stack[k.val] = s.stack[k.val]) ∨ t.stack[k.val] = s.pc + 2 := by
  cases i with
  | call nnn =>
    obtain ⟨hsp, hstack⟩ := exec_call_stack h
    have hentry := hstack k
    split at hentry
    · exact .inr hentry
    · exact .inl ⟨by omega, hentry⟩
  | ret =>
    obtain ⟨-, rfl⟩ := exec_next h
    have hk : k.val < s.sp.val - 1 := hk
    exact .inl ⟨by omega, rfl⟩
  | _ =>
    obtain ⟨hsp, hstack⟩ := exec_stackKept h (fun _ => nofun) nofun
    exact .inl ⟨hsp ▸ hk, by simp only [hstack]⟩

end Sys2Proof.Machine
end

section
/-!
PROOFS. The statements about the whole table: PC, the stack, the framebuffer, VF.
-/
namespace Sys2Proof.Machine

/-- Settles O52, instruction by instruction from `exec_next`. -/
theorem pcAfterEachInstruction : Obligations.PcAfterEachInstruction := by
  intro i s t h
  cases i with
  | ret =>
    obtain ⟨hsp, rfl⟩ := exec_next h
    have := s.sp.isLt
    exact ⟨⟨s.sp.val - 1, by omega⟩, by simp only; omega, rfl⟩
  | jp nnn => obtain ⟨-, rfl⟩ := exec_next h; exact addrTarget_toNat nnn
  | call nnn => obtain ⟨-, -, rfl⟩ := exec_next h; exact addrTarget_toNat nnn
  | jpV0 nnn => obtain ⟨-, rfl⟩ := exec_next h; exact indexedTarget_toNat nnn s
  | seImm | sneImm | seReg | sneReg => cases exec_next h; simp
  | skp => obtain ⟨-, rfl⟩ := exec_next h; rfl
  | sknp x =>
    obtain ⟨-, rfl⟩ := exec_next h
    cases hk : Config.keyHeld s.inputs ((s.reg x).setWidth 4) <;> simp [State.keyHeld, hk]
  | drw => obtain ⟨-, -, rfl⟩ := exec_next h; rfl
  | ldB | stRegs => obtain ⟨-, rfl⟩ := exec_next h; rfl
  | ldRegs => obtain ⟨-, rfl⟩ := exec_next h; simp
  | _ => cases exec_next h; rfl

/-- Settles O54: `exec_stackKept` for every instruction but CALL and RET, and RET writes no entry. -/
theorem onlyCallAndRetChangeStack : Obligations.OnlyCallAndRetChangeStack := by
  intro i s t h
  cases i with
  | call nnn => exact ⟨fun _ => ⟨nnn, rfl⟩, fun _ => .inr ⟨nnn, rfl⟩⟩
  | ret =>
    obtain ⟨-, rfl⟩ := exec_next h
    exact ⟨fun hne => absurd rfl hne, fun _ => .inl rfl⟩
  | _ =>
    obtain ⟨hsp, hstack⟩ := exec_stackKept h (fun _ => nofun) nofun
    exact ⟨fun hne => absurd hstack hne, fun hne => absurd hsp hne⟩

/-- Settles O47: the framebuffer's frame `exec_fb`, read backwards. -/
theorem onlyClearAndDrawChangeScreen : Obligations.OnlyClearAndDrawChangeScreen := by
  intro i s t h hne
  by_contra! hi
  obtain ⟨hcls, hdrw⟩ := hi
  exact hne (exec_fb h hcls hdrw)

/-- A write of one register and the advance change VF only where VF is the register written. -/
theorem eq_vf_of_reg_changed {s : State} {x : Nibble} {b : Byte} (h : (s.setReg x b).advance.reg 0xF ≠ s.reg 0xF) :
    x = 0xF := by
  by_contra hx
  exact h (by rw [State.reg_advance, State.reg_setReg, if_neg (Ne.symm hx)])

/-- `Fx65` loads VF only where `x` is VF (42_index_and_memory.md R125). -/
theorem eq_vf_of_loadRegs_changed {s : State} {a : Nat} {x : Nibble}
    (h : (s.loadRegs a (regCount x)).advance.reg 0xF ≠ s.reg 0xF) : x = 0xF := by
  have hx := x.isLt
  by_contra hne
  have hlt : x.toNat ≠ 15 := fun he => hne (BitVec.eq_of_toNat_eq he)
  refine h ?_
  rw [State.reg_advance, State.reg_loadRegs s a _ (by unfold regCount; omega), if_neg]
  unfold regCount
  show ¬ 15 < x.toNat + 1
  omega

/-- Settles O34: an instruction that writes one register must name VF, and those that write none keep it. -/
theorem flagWriters : Obligations.FlagWriters := by
  intro i s t h hne
  cases i with
  | addReg x y => exact .inl ⟨x, y, .inl rfl⟩
  | sub x y => exact .inl ⟨x, y, .inr (.inl rfl)⟩
  | shr x y => exact .inl ⟨x, y, .inr (.inr (.inl rfl))⟩
  | subn x y => exact .inl ⟨x, y, .inr (.inr (.inr (.inl rfl)))⟩
  | shl x y => exact .inl ⟨x, y, .inr (.inr (.inr (.inr rfl)))⟩
  | drw x y n => exact .inr (.inl ⟨x, y, n, rfl⟩)
  | ldImm | addImm | rnd | ldReg | orReg | andReg | xorReg | ldVxDt =>
    cases exec_next h
    obtain rfl := eq_vf_of_reg_changed hne
    simp
  | ldRegs x =>
    obtain ⟨-, rfl⟩ := exec_next h
    obtain rfl := eq_vf_of_loadRegs_changed hne
    simp
  | ret | jp | jpV0 | skp | sknp | ldB | stRegs => obtain ⟨-, rfl⟩ := exec_next h; exact absurd rfl hne
  | call => obtain ⟨-, -, rfl⟩ := exec_next h; exact absurd (State.reg_push ..) hne
  | _ => cases exec_next h; exact absurd rfl hne

end Sys2Proof.Machine
end

section
/-!
PROOFS. Noninterference (10_state.md R26). The sound timer and the framebuffer are outputs of the block: an instruction
that neither writes them nor is DRW runs the same whatever they hold, and hands that on. This is one equation,
`exec_mapOutputs`: a change of the outputs commutes with the execute stage.
-/
namespace Sys2Proof.Machine

/-- An outcome with its next state, if it has one, changed by `f`. -/
def mapNext (f : State → State) : Result → Result
  | .next t => .next (f t)
  | .fault e => .fault e
  | .refused q => .refused q

theorem faultOf_mapNext (f : State → State) (r : Result) : faultOf (mapNext f r) = faultOf r := by cases r <;> rfl

theorem nextOf_mapNext (f : State → State) (r : Result) : nextOf (mapNext f r) = (nextOf r).map f := by cases r <;> rfl

theorem withData_mapNext (f : State → State) (len : Nat) (i : Instr) (s : State) (done : Result) :
    withData len i s (mapNext f done) = mapNext f (withData len i s done) := by
  unfold withData; split <;> rfl

theorem withKey_mapNext (f : State → State) (b : Byte) (i : Instr) (s : State) (done : Bool → Result) :
    withKey b i s (fun held => mapNext f (done held)) = mapNext f (withKey b i s done) := by
  unfold withKey; split <;> rfl

/-- `s` with ST changed by `g` and the framebuffer by `k`: `setSt b` is `mapOutputs (fun _ => b) id`, and `setFb fb` is
`mapOutputs id (fun _ => fb)`. -/
def State.mapOutputs (g : Byte → Byte) (k : Framebuffer → Framebuffer) (s : State) : State :=
  { s with st := g s.st, fb := k s.fb }

variable (g : Byte → Byte) (k : Framebuffer → Framebuffer) (s : State)

/-! ## The operations that test the state do not see the outputs -/

theorem State.push_mapOutputs (w : Word) : (s.mapOutputs g k).push w = (s.push w).mapOutputs g k := by
  simp only [State.push, apply_dite (State.mapOutputs g k)]; rfl

theorem State.loadRegs_mapOutputs (a n : Nat) : (s.mapOutputs g k).loadRegs a n = (s.loadRegs a n).mapOutputs g k := by
  induction n with
  | zero => rfl
  | succ n ih => rw [State.loadRegs, State.loadRegs, ih]; rfl

theorem jumpTo_mapOutputs (w : Word) (i : Instr) (t : State) :
    jumpTo w i (s.mapOutputs g k) (t.mapOutputs g k) = mapNext (State.mapOutputs g k) (jumpTo w i s t) := by
  unfold jumpTo; split <;> rfl

/-! ## The execute stage -/

/-- A change of the outputs goes through every instruction that neither writes them nor is DRW. -/
theorem exec_mapOutputs {i : Instr} (hst : ∀ x, i ≠ .ldStVx x) (hcls : i ≠ .cls) (hdrw : ∀ x y n, i ≠ .drw x y n) :
    exec i (s.mapOutputs g k) = mapNext (State.mapOutputs g k) (exec i s) := by
  cases i with
  | ldStVx x => exact absurd rfl (hst x)
  | cls => exact absurd rfl hcls
  | drw x y n => exact absurd rfl (hdrw x y n)
  | ret => simp only [exec, execRet, apply_ite (mapNext (State.mapOutputs g k))]; rfl
  | jp nnn => exact jumpTo_mapOutputs ..
  | jpV0 nnn => exact jumpTo_mapOutputs ..
  | call nnn =>
    simp only [exec, execCall, apply_ite (mapNext (State.mapOutputs g k)), ← jumpTo_mapOutputs, ← State.push_mapOutputs]
    rfl
  | skp x => simp only [exec, execSkp, ← withKey_mapNext]; rfl
  | sknp x => simp only [exec, execSknp, ← withKey_mapNext]; rfl
  | ldB x => simp only [exec, execLdB, ← withData_mapNext]; rfl
  | stRegs x => simp only [exec, execStRegs, ← withData_mapNext]; rfl
  | ldRegs x => simp only [exec, execLdRegs, ← withData_mapNext, State.loadRegs_mapOutputs]; rfl
  | _ => rfl

theorem drawChecked_setSt (ps : List Pixel) (i : Instr) (b : Byte) :
    drawChecked ps i (s.setSt b) = mapNext (·.setSt b) (drawChecked ps i s) := by
  unfold drawChecked; split <;> rfl

/-- An instruction that does not write ST hands on whatever is in it. -/
theorem exec_setSt {i : Instr} (hi : ∀ x, i ≠ .ldStVx x) (b : Byte) :
    exec i (s.setSt b) = mapNext (·.setSt b) (exec i s) := by
  cases i with
  | cls => rfl
  | drw x y n => simp only [exec, execDrw, ← withData_mapNext, ← drawChecked_setSt]; rfl
  | _ => exact exec_mapOutputs (fun _ => b) id s hi nofun (fun _ _ _ => nofun)

/-- An instruction that does not write the framebuffer hands on whatever is in it. -/
theorem exec_setFb {i : Instr} (hcls : i ≠ .cls) (hdrw : ∀ x y n, i ≠ .drw x y n) (fb : Framebuffer) :
    exec i (s.setFb fb) = mapNext (·.setFb fb) (exec i s) := by
  cases i with
  | ldStVx x => rfl
  | _ => exact exec_mapOutputs id (fun _ => fb) s (fun _ => nofun) hcls hdrw

/-- `Fx18` overwrites ST without a look at it. -/
theorem exec_ldStVx_setSt (x : Nibble) (b : Byte) : exec (.ldStVx x) (s.setSt b) = exec (.ldStVx x) s := rfl

/-- CLS overwrites the framebuffer without a look at it. -/
theorem exec_cls_setFb (fb : Framebuffer) : exec .cls (s.setFb fb) = exec .cls s := rfl

/-- Settles O57: another ST commutes with every instruction but `Fx18`, which overwrites it. -/
theorem soundTimerIsNotRead : Obligations.SoundTimerIsNotRead := by
  intro i s b
  by_cases hi : ∃ x, i = .ldStVx x
  · obtain ⟨x, rfl⟩ := hi
    rw [exec_ldStVx_setSt]
    exact ⟨rfl, rfl, fun _ _ => rfl⟩
  · rw [exec_setSt s (fun x hx => hi ⟨x, hx⟩), faultOf_mapNext, nextOf_mapNext, Option.map_map]
    exact ⟨rfl, rfl, fun x hx => absurd ⟨x, hx⟩ hi⟩

/-- Settles O58: another framebuffer commutes with every instruction but DRW and CLS, and CLS overwrites it. -/
theorem screenIsSeenOnlyByDraw : Obligations.ScreenIsSeenOnlyByDraw := by
  intro i s fb hdrw
  by_cases hcls : i = .cls
  · rw [hcls, exec_cls_setFb]
    exact ⟨rfl, rfl⟩
  · rw [exec_setFb s hcls hdrw, faultOf_mapNext, nextOf_mapNext, Option.map_map]
    exact ⟨rfl, rfl⟩

end Sys2Proof.Machine
end

section
/-!
PROOFS. The decoder reads back what the encoder writes: the word of a decoded instruction is its encoding
(30_encoding.md R61 to R64), one lemma per table of sub-opcodes.
-/
namespace Sys2Proof

theorem encode_of_decodeZero {op : Word} {i : Instr} (h : decodeZero op = some i) : op = encode i := by
  unfold decodeZero at h
  split at h <;> cases h <;> rfl

theorem encode_of_decodeArith {x y m : Nibble} {i : Instr} (h : decodeArith x y m = some i) :
    packNibbles 0x8 x y m = encode i := by
  unfold decodeArith at h
  split at h <;> cases h <;> rfl

theorem eq_of_decodeMinorZero {i j : Instr} {m : Nibble} (h : decodeMinorZero i m = some j) : m = 0 ∧ i = j := by
  unfold decodeMinorZero at h
  split at h <;> cases h
  exact ⟨rfl, rfl⟩

theorem encode_of_decodeKey {x : Nibble} {f : Byte} {i : Instr} (h : decodeKey x f = some i) :
    packByte 0xE x f = encode i := by
  unfold decodeKey at h
  split at h <;> cases h <;> rfl

theorem encode_of_decodeMisc {x : Nibble} {f : Byte} {i : Instr} (h : decodeMisc x f = some i) :
    packByte 0xF x f = encode i := by
  unfold decodeMisc at h
  split at h <;> cases h <;> rfl

/-- A word is put together again from its major opcode and its fields, whatever the format. -/
theorem encode_of_decode {op : Word} {i : Instr} (h : decode op = some i) : op = encode i := by
  have hA := packAddr_fields op
  have hI := packByte_fields op
  have hR := packNibbles_fields op
  unfold decode at h
  split at h
  case h_1 => exact encode_of_decodeZero h
  case h_2 hm | h_3 hm | h_11 hm | h_12 hm => cases h; rw [hm] at hA; exact hA.symm
  case h_4 hm | h_5 hm | h_7 hm | h_8 hm | h_13 hm => cases h; rw [hm] at hI; exact hI.symm
  case h_6 hm | h_10 hm =>
    obtain ⟨hn, rfl⟩ := eq_of_decodeMinorZero h
    rw [hm, hn] at hR
    exact hR.symm
  case h_9 hm => rw [hm] at hR; exact hR.symm.trans (encode_of_decodeArith h)
  case h_14 hm => cases h; rw [hm] at hR; exact hR.symm
  case h_15 hm => rw [hm] at hI; exact hI.symm.trans (encode_of_decodeKey h)
  case h_16 hm => rw [hm] at hI; exact hI.symm.trans (encode_of_decodeMisc h)
  case h_17 => cases h

end Sys2Proof
end

section
/-!
PROOFS. The invariants of 10_state.md R31: the execute stage keeps them, then the cycle, the step and every host
operation, then any run of host operations.
-/
namespace Sys2Proof.Machine

variable {i : Instr} {s t : State}

/-! ## PC and the live stack entries -/

/-- PC after an instruction: 0, 2 or 4 further, a jump target, or the popped entry. -/
theorem exec_pc_cases (h : exec i s = .next t) :
    (∃ d : Word, d.toNat % 2 = 0 ∧ d.toNat ≤ 4 ∧ t.pc = s.pc + d) ∨ PcLegal t ∨
      ∃ k : Fin 16, k.val < s.sp.val ∧ t.pc = s.stack[k.val] := by
  have hpc := pcAfterEachInstruction i s t h
  cases i with
  | ret => obtain ⟨k, hk, hpc⟩ := hpc; exact .inr (.inr ⟨k, by omega, hpc⟩)
  | jp nnn =>
    obtain ⟨heven, rfl⟩ := exec_next h
    have := nnn.isLt
    exact .inr (.inl ⟨(isOdd_eq_false_iff _).1 heven, by rw [hpc]; omega⟩)
  | call nnn =>
    obtain ⟨-, heven, rfl⟩ := exec_next h
    have := nnn.isLt
    exact .inr (.inl ⟨(isOdd_eq_false_iff _).1 heven, by rw [hpc]; omega⟩)
  | jpV0 nnn =>
    obtain ⟨heven, rfl⟩ := exec_next h
    have := nnn.isLt
    have := (s.reg 0).isLt
    exact .inr (.inl ⟨(isOdd_eq_false_iff _).1 heven, by rw [hpc]; omega⟩)
  | seImm | sneImm | seReg | sneReg | skp | sknp => refine .inl ⟨_, ?_, ?_, hpc⟩ <;> split <;> decide
  | ldVxK => exact .inl ⟨0, by decide, by decide, hpc.trans (BitVec.add_zero _).symm⟩
  | _ => exact .inl ⟨2, by decide, by decide, hpc⟩

/-- Settles O53: PC moves by an even distance, to an even target or to a live entry, and CALL pushes the even `PC + 2`. -/
theorem pcStaysEven : Obligations.PcStaysEven := by
  intro i s t hpc hstack h
  refine ⟨?_, fun k hk => ?_⟩
  · rcases exec_pc_cases h with ⟨d, hd, -, he⟩ | ⟨heven, -⟩ | ⟨k, hk, he⟩
    · rw [he, BitVec.toNat_add]; omega
    · exact heven
    · rw [he]; exact hstack k hk
  · rcases exec_live_entry h k hk with ⟨hk, he⟩ | he
    · rw [he]; exact hstack k hk
    · rw [he, BitVec.toNat_add, show (2 : Word).toNat = 2 from rfl]; omega

/-! ## The execute stage -/

theorem exec_pcLegal (hpc : PcLegal s) (hstack : StackLegal s) (hfetch : s.pc.toNat ≤ 0xFFE) (h : exec i s = .next t) :
    PcLegal t := by
  rcases exec_pc_cases h with ⟨d, hd, hd4, he⟩ | hjump | ⟨k, hk, he⟩
  · obtain ⟨heven, -⟩ := hpc
    rw [PcLegal, he, BitVec.toNat_add]; omega
  · exact hjump
  · obtain ⟨heven, -, hle⟩ := hstack k hk
    rw [PcLegal, he]; omega

theorem exec_stackLegal (hpc : PcLegal s) (hstack : StackLegal s) (hfetch : s.pc.toNat ≤ 0xFFE) (h : exec i s = .next t) :
    StackLegal t := by
  intro k hk
  rcases exec_live_entry h k hk with ⟨hk, he⟩ | he
  · rw [he]; exact hstack k hk
  · obtain ⟨heven, -⟩ := hpc
    rw [he, BitVec.toNat_add, show (2 : Word).toNat = 2 from rfl]; omega

theorem waitLegal_of_run (h : s.rs = .run) : WaitLegal s := fun hwait => by rw [h] at hwait; cases hwait

/-- `Fx0A` alone begins a wait, and it leaves its own word where it was fetched. -/
theorem exec_waitLegal (hrun : s.rs = .run) (hfetch : s.fetch = some (encode i)) (h : exec i s = .next t) :
    WaitLegal t := by
  cases i with
  | ldVxK x => cases exec_next h; exact fun _ => hfetch
  | _ => exact waitLegal_of_run ((exec_rs h fun _ => nofun).trans hrun)

theorem exec_stateInv (hs : StateInv s) (hrun : s.rs = .run) (hfetch : s.fetch = some (encode i))
    (h : exec i s = .next t) : StateInv t := by
  obtain ⟨hpc, hstack, hmem, -⟩ := hs
  obtain ⟨hle, -⟩ := State.fetch_eq_some hfetch
  exact ⟨exec_pcLegal hpc hstack hle h, exec_stackLegal hpc hstack hle h, exec_wf h hmem, exec_waitLegal hrun hfetch h⟩

/-! ## The cycle, a key press and a load -/

theorem StateInv.tick (hs : StateInv s) : StateInv s.tick := hs

theorem StateInv.sample (hs : StateInv s) : StateInv s.sample := hs

/-- The normal advance from a PC that has been fetched at, into a running state. -/
theorem StateInv.of_advanced (hs : StateInv s) (hfetch : s.pc.toNat ≤ 0xFFE) (hpc : t.pc = s.pc + 2) (hstack : StackKept s t)
    (hmem : t.mem = s.mem) (hrun : t.rs = .run) : StateInv t := by
  obtain ⟨⟨heven, -⟩, hst, hwf, -⟩ := hs
  obtain ⟨hsp, hentries⟩ := hstack
  have hpc' : PcLegal t := by
    rw [PcLegal, hpc, BitVec.toNat_add, show (2 : Word).toNat = 2 from rfl]; omega
  refine ⟨hpc', ?_, by rwa [hmem], waitLegal_of_run hrun⟩
  simpa only [StackLegal, hsp, hentries] using hst

theorem tickAfter_next {r : Result} (h : tickAfter i r = .next t) : ∃ u, r = .next u ∧ (t = u ∨ t = u.tick) := by
  cases r with
  | next u =>
    refine ⟨u, rfl, ?_⟩
    cases h
    split
    · exact .inl rfl
    · exact .inr rfl
  | fault f => cases h
  | refused q => cases h

theorem cycle_of_await (h : s.rs = .awaitKey) : cycle s = ⟨.next s, none⟩ := by unfold cycle; rw [h]

theorem cycle_outcome_of_run (h : s.rs = .run) : (cycle s).outcome = step s := by unfold step; rw [h]

/-- The cycle of a fetched word keeps the invariants: an unknown opcode advances PC, anything else executes. -/
theorem cycleOf_stateInv {op : Word} (hs : StateInv s) (hrun : s.rs = .run) (hfetch : s.fetch = some op)
    (h : (cycleOf op s).outcome = .next t) : StateInv t := by
  cases hd : decode op with
  | none =>
    rw [cycleOf_none hd] at h
    cases h
    exact (hs.of_advanced (t := s.advance) (State.fetch_eq_some hfetch).1 rfl ⟨rfl, rfl⟩ rfl hrun).tick
  | some i =>
    rw [cycleOf_some hd] at h
    obtain ⟨u, hu, ht⟩ := tickAfter_next h
    have hinv : StateInv u := exec_stateInv hs hrun (encode_of_decode hd ▸ hfetch) hu
    obtain rfl | rfl := ht
    · exact hinv
    · exact hinv.tick

theorem cycle_stateInv (hs : StateInv s) (h : (cycle s).outcome = .next t) : StateInv t := by
  cases hrs : s.rs with
  | awaitKey => rw [cycle_of_await hrs] at h; cases h; exact hs
  | run =>
    rw [cycle_outcome_of_run hrs, step_run hrs] at h
    cases hf : s.fetch with
    | none => rw [hf] at h; cases h
    | some op => rw [hf] at h; exact cycleOf_stateInv hs hrs hf h

/-- A key press in a wait advances PC past the `Fx0A` that `WaitLegal` finds there. -/
theorem keyPress_stateInv (hs : StateInv s) (k : Nibble) : StateInv (keyPress k s) := by
  cases hrs : s.rs with
  | run => unfold keyPress; rw [hrs]; exact hs
  | awaitKey =>
    have ⟨_, _, _, hwait⟩ := hs
    have hfetch := (State.fetch_eq_some (hwait hrs)).1
    unfold keyPress
    rw [hrs]
    exact hs.of_advanced hfetch rfl ⟨rfl, rfl⟩ rfl rfl

/-- Settles O16. -/
theorem resetMeetsInv : Obligations.ResetMeetsInv := by
  unfold Obligations.ResetMeetsInv
  decide

/-- A load that is accepted: the reset state but for memory, which holds the image in canonical form. -/
theorem load_stateInv {p : List Byte} (hp : p.length ≤ 3584) (s : State) : StateInv (load p s).2 := by
  obtain ⟨hpc, hstack, hmem, -⟩ := resetMeetsInv
  have hwf : imageWellFormed p = true := decide_eq_true hp
  unfold load
  rw [hwf]
  exact ⟨hpc, hstack, Memory.wf_writeBytes hmem p (by unfold Config.progBase; omega), waitLegal_of_run rfl⟩

/-- Settles O60, operation by operation. -/
theorem hostOperationsKeepInv : Obligations.HostOperationsKeepInv := by
  intro op s t hs h
  cases op with
  | cycle => exact cycle_stateInv hs h
  | keyPress k => cases h; exact keyPress_stateInv hs k
  | load p =>
    cases h
    by_cases hp : p.length ≤ 3584
    · exact load_stateInv hp s
    · have hwf : imageWellFormed p = false := decide_eq_false hp
      unfold load
      rw [hwf]
      exact hs

/-- Settles O17: a step is a cycle, or an idle cycle or a key press in the wait. -/
theorem stepKeepsInv : Obligations.StepKeepsInv := by
  intro s t hs h
  cases hrs : s.rs with
  | run => rw [← cycle_outcome_of_run hrs] at h; exact cycle_stateInv hs h
  | awaitKey =>
    rw [step_await hrs] at h
    cases h
    rcases awaitInput_cases s with he | ⟨k, he⟩
    · rw [he]; exact hs.sample
    · rw [he]; exact (keyPress_stateInv hs k).sample

/-! ## Runs -/

/-- What every host operation keeps holds after any list of them. -/
theorem runOps_induction {P : State → Prop} (hstep : ∀ op s t, P s → applyOp op s = .next t → P t) {ops : List HostOp}
    (hs : P s) (h : runOps ops s = some t) : P t := by
  induction ops generalizing s with
  | nil => cases h; exact hs
  | cons op ops ih =>
    rw [runOps] at h
    cases hop : applyOp op s with
    | next u => rw [hop] at h; exact ih (hstep op s u hs hop) h
    | fault f => rw [hop] at h; cases h
    | refused q => rw [hop] at h; cases h

/-- Settles O18: `load_stateInv`, then `hostOperationsKeepInv` along the run. -/
theorem reachableStatesMeetInv : Obligations.ReachableStatesMeetInv := by
  intro p s t ops hp h
  obtain ⟨⟨heven, hle⟩, hstack, hmem, hwait⟩ := runOps_induction hostOperationsKeepInv (load_stateInv hp s) h
  refine ⟨heven, hle, by have := t.sp.isLt; omega, hstack, fun hrs => ?_, hmem⟩
  obtain ⟨hfetch, hword⟩ := State.fetch_eq_some (hwait hrs)
  exact ⟨hfetch, hword.symm⟩

end Sys2Proof.Machine
end

section
/-!
PROOFS. Nested calls (10_state.md R20), and the state after reset (10_state.md R28).
-/
namespace Sys2Proof.Machine

variable {s : State}

theorem exec_call_of_full (h : s.sp.val = 16) (nnn : Addr) :
    exec (.call nnn) s = .fault (.stackOverflow s.pc (encode (.call nnn))) := if_pos h

theorem exec_call_of_room (h : s.sp.val < 16) {nnn : Addr} (heven : nnn.toNat % 2 = 0) :
    exec (.call nnn) s = .next ((s.push (s.pc + 2)).setPc (addrTarget nnn)) := by
  have htarget : isOdd (addrTarget nnn) = false := (isOdd_eq_false_iff _).2 (by rwa [addrTarget_toNat])
  rw [exec, execCall, if_neg (by omega), jumpTo_next.2 ⟨htarget, rfl⟩]

/-- Settles O26, by induction on the calls: the first of them overflows, or leaves one entry less to fill. -/
theorem callsNestToSixteen : Obligations.CallsNestToSixteen := by
  intro targets
  induction targets with
  | nil => exact fun s _ => ⟨fun _ => ⟨s, rfl, rfl⟩, fun h => by have := s.sp.isLt; rw [List.length_nil] at h; omega⟩
  | cons nnn rest ih =>
    intro s heven
    rw [List.length_cons, runCalls]
    by_cases hfull : s.sp.val = 16
    · rw [exec_call_of_full hfull]
      exact ⟨fun h => by omega, fun _ => ⟨_, rfl, rfl, by rw [hfull]; rfl⟩⟩
    · have hroom : s.sp.val < 16 := by have := s.sp.isLt; omega
      obtain ⟨hfit, hover⟩ := ih ((s.push (s.pc + 2)).setPc (addrTarget nnn)) fun a ha => heven a (List.mem_cons_of_mem _ ha)
      rw [exec_call_of_room hroom (heven nnn List.mem_cons_self)]
      rw [State.setPc_sp, State.push_sp hroom] at hfit hover
      rw [show 16 - s.sp.val = 16 - (s.sp.val + 1) + 1 by omega, List.getElem?_cons_succ,
        show s.sp.val + (rest.length + 1) = s.sp.val + 1 + rest.length by omega]
      exact ⟨hfit, hover⟩

/-- Settles O15, field by field; nothing is listed in the reset memory, so it reads as the fontset and zeros. -/
theorem resetIsPostLoad : Obligations.ResetIsPostLoad := by
  have hzero : ∀ a, 0x50 ≤ a → font.getD a 0 = 0 := fun a ha => List.getD_eq_default _ _ ha
  have hreg : ∀ r, State.reset.reg r = 0 := fun r => Vector.getElem_replicate _
  have hstack : ∀ k : Fin 16, State.reset.stack[k.val] = 0 := fun k => Vector.getElem_replicate _
  have hpixel : ∀ row col, State.reset.pixel row col = false := by
    intro row col
    simp [State.pixel, Framebuffer.cell, State.reset]
  exact ⟨hreg, rfl, rfl, rfl, hstack, rfl, rfl, hpixel, rfl, rfl, fun _ _ => rfl, hzero, fun _ => rfl⟩

end Sys2Proof.Machine
end

section
/-!
PROOFS. Memory: the fetch (20_memory.md R41, R52), and the bytes the two stores change (20_memory.md R44, R45).
-/
namespace Sys2Proof.Machine

variable {s t : State}

/-! ## The fetch -/

/-- The byte at the lower address is the high one (20_memory.md R41). -/
theorem wordOfBytes_toNat (hi lo : Byte) : (wordOfBytes hi lo).toNat = 256 * hi.toNat + lo.toNat := by
  rw [wordOfBytes, BitVec.toNat_append, ← Nat.shiftLeft_add_eq_or_of_lt lo.isLt, Nat.shiftLeft_eq, Nat.mul_comm]

theorem State.fetch_of_le (h : s.pc.toNat ≤ 0xFFE) :
    s.fetch = some (wordOfBytes (s.readByte s.pc.toNat) (s.readByte (s.pc.toNat + 1))) :=
  if_neg (Nat.not_lt.2 h)

theorem State.fetch_of_gt (h : 0xFFE < s.pc.toNat) : s.fetch = none := if_pos h

/-- Settles O7: `fetch_of_le` and `wordOfBytes_toNat`; past the last word the step is the fetch's fault. -/
theorem fetchIsBigEndian : Obligations.FetchIsBigEndian := by
  refine fun s => ⟨fun hle => ⟨_, State.fetch_of_le hle, wordOfBytes_toNat ..⟩, fun hgt => ?_⟩
  have hfetch := State.fetch_of_gt hgt
  exact ⟨hfetch, fun hrun => by rw [step_run hrun, hfetch]⟩

/-! ## The two stores -/

/-- `Fx55` leaves `V[j]` in the byte at `I + j` (42_index_and_memory.md R124). -/
theorem exec_stRegs_readByte {x : Nibble} (hm : Memory.wf s.mem = true) (h : exec (.stRegs x) s = .next t) {j : Nat}
    (hj : j ≤ x.toNat) : t.readByte (s.ireg.toNat + j) = s.reg (BitVec.ofNat 4 j) := by
  obtain ⟨hle, rfl⟩ := exec_next h
  have hlt : j < regCount x := Nat.lt_succ_of_le hj
  have hread := State.readByte_store hm (regsBelow s (regCount x)) (by simpa using hle) (s.ireg.toNat + j)
  rw [if_pos (by rw [regsBelow_length]; omega), Nat.add_sub_cancel_left, regsBelow_getD s hlt] at hread
  exact hread

/-- Settles O9: both bytes of the word are bytes `Fx55` stored, by `exec_stRegs_readByte`. -/
theorem fetchSeesStores : Obligations.FetchSeesStores := by
  intro s t u x j hm h hj hmem hpc
  have hI : s.ireg.toNat + regCount x ≤ 0x1000 := (exec_next h).1
  have hle : u.pc.toNat ≤ 0xFFE := by unfold regCount at hI; omega
  rw [State.fetch_of_le hle, State.readByte_congr hmem, State.readByte_congr hmem, hpc, Nat.add_assoc,
    exec_stRegs_readByte hm h (by omega), exec_stRegs_readByte hm h hj]

/-- Settles O19: `exec_wf`. -/
theorem execKeepsMemoryCanonical : Obligations.ExecKeepsMemoryCanonical := fun _ _ _ hm h => exec_wf h hm

/-- A byte that a store changes is one it stores to. -/
theorem State.mem_range_of_store_changed (hm : Memory.wf s.mem = true) {a c : Nat} {bs : List Byte}
    (ha : a + bs.length ≤ 0x1000) (hne : (s.store a bs).readByte c ≠ s.readByte c) : a ≤ c ∧ c < a + bs.length := by
  by_contra hc
  exact hne (by rw [State.readByte_store hm bs ha, if_neg hc])

/-- Settles O41: `exec_mem` for every instruction but the two stores, and those change only the bytes they store to. -/
theorem onlyStoresChangeMemory : Obligations.OnlyStoresChangeMemory := by
  intro i s t a hm h hne
  cases i with
  | ldB x =>
    obtain ⟨hle, rfl⟩ := exec_next h
    exact .inl ⟨x, rfl, State.mem_range_of_store_changed hm hle hne⟩
  | stRegs x =>
    obtain ⟨hle, rfl⟩ := exec_next h
    have hrange := State.mem_range_of_store_changed hm (by simpa using hle) hne
    rw [regsBelow_length] at hrange
    exact .inr ⟨x, rfl, hrange⟩
  | _ => exact absurd (State.readByte_congr (exec_mem h (fun _ => nofun) (fun _ => nofun)) a) hne

end Sys2Proof.Machine
end

section
/-!
PROOFS. The encoder and the decoder are inverse: with `encode_of_decode` above, the word of every instruction decodes to
that instruction, format by format (30_encoding.md R61 to R64).
-/
namespace Sys2Proof

/-- Every operand of every instruction is read back from its word. -/
theorem decode_encode (i : Instr) : decode (encode i) = some i := by
  cases i with
  | cls | ret => rfl
  | jp | call | ldI | jpV0 => simp [encode, decode, fieldMajor_packAddr, fieldNnn_packAddr]
  | seImm | sneImm | ldImm | addImm | rnd =>
    simp [encode, decode, fieldMajor_packByte, fieldX_packByte, fieldKk_packByte]
  | skp | sknp => simp [encode, decode, decodeKey, fieldMajor_packByte, fieldX_packByte, fieldKk_packByte]
  | ldVxDt | ldDtVx | ldStVx | ldVxK | addI | ldF | ldB | stRegs | ldRegs =>
    simp [encode, decode, decodeMisc, fieldMajor_packByte, fieldX_packByte, fieldKk_packByte]
  | seReg | sneReg =>
    simp [encode, decode, decodeMinorZero, fieldMajor_packNibbles, fieldX_packNibbles, fieldY_packNibbles,
      fieldN_packNibbles]
  | ldReg | orReg | andReg | xorReg | addReg | sub | shr | subn | shl =>
    simp [encode, decode, decodeArith, fieldMajor_packNibbles, fieldX_packNibbles, fieldY_packNibbles, fieldN_packNibbles]
  | drw =>
    simp [encode, decode, fieldMajor_packNibbles, fieldX_packNibbles, fieldY_packNibbles, fieldN_packNibbles]

theorem decode_eq_some_iff {op : Word} {i : Instr} : decode op = some i ↔ op = encode i :=
  ⟨encode_of_decode, fun h => h ▸ decode_encode i⟩

theorem Instr.wellFormed_eq_true (i : Instr) : i.wellFormed = true := by cases i <;> rfl

/-- Settles O1: `encode_of_decode` one way, `decode_encode` the other. -/
theorem decodeIffEncode : Obligations.DecodeIffEncode := fun _ i => ⟨i.wellFormed_eq_true, decode_eq_some_iff⟩

/-- Settles O3, word by word. -/
theorem writtenWordsDecode : Obligations.WrittenWordsDecode := by unfold Obligations.WrittenWordsDecode; decide

end Sys2Proof
end

section
/-!
PROOFS. Which words are instructions, by major opcode (30_encoding.md R65 to R67, R69): one lemma per table of
sub-opcodes, and the table each major opcode leads to.
-/
namespace Sys2Proof

/-! ## The tables of sub-opcodes -/

theorem isSome_decodeZero {op : Word} : (decodeZero op).isSome = true ↔ op = 0x00E0 ∨ op = 0x00EE := by
  unfold decodeZero
  split <;> simp_all

theorem isSome_decodeMinorZero {i : Instr} {m : Nibble} : (decodeMinorZero i m).isSome = true ↔ m = 0 := by
  unfold decodeMinorZero
  split <;> simp_all

theorem isSome_decodeArith {x y m : Nibble} : (decodeArith x y m).isSome = true ↔
    m ∈ ([0x0, 0x1, 0x2, 0x3, 0x4, 0x5, 0x6, 0x7, 0xE] : List Nibble) := by
  unfold decodeArith
  split <;> simp_all

theorem isSome_decodeKey {x : Nibble} {f : Byte} : (decodeKey x f).isSome = true ↔ f ∈ ([0x9E, 0xA1] : List Byte) := by
  unfold decodeKey
  split <;> simp_all

theorem isSome_decodeMisc {x : Nibble} {f : Byte} : (decodeMisc x f).isSome = true ↔
    f ∈ ([0x07, 0x0A, 0x15, 0x18, 0x1E, 0x29, 0x33, 0x55, 0x65] : List Byte) := by
  unfold decodeMisc
  split <;> simp_all

/-! ## The table of each major opcode -/

variable {op : Word}

theorem decode_of_major_zero (h : fieldMajor op = 0x0) : decode op = decodeZero op := by simp [decode, h]

theorem decode_of_major_five (h : fieldMajor op = 0x5) :
    decode op = decodeMinorZero (.seReg (fieldX op) (fieldY op)) (fieldN op) := by simp [decode, h]

theorem decode_of_major_eight (h : fieldMajor op = 0x8) :
    decode op = decodeArith (fieldX op) (fieldY op) (fieldN op) := by simp [decode, h]

theorem decode_of_major_nine (h : fieldMajor op = 0x9) :
    decode op = decodeMinorZero (.sneReg (fieldX op) (fieldY op)) (fieldN op) := by simp [decode, h]

theorem decode_of_major_key (h : fieldMajor op = 0xE) : decode op = decodeKey (fieldX op) (fieldKk op) := by
  simp [decode, h]

theorem decode_of_major_misc (h : fieldMajor op = 0xF) : decode op = decodeMisc (fieldX op) (fieldKk op) := by
  simp [decode, h]

/-- A major opcode with no sub-opcode makes an instruction of every word. -/
theorem isSome_decode_of_major (h : fieldMajor op ∈ ([0x1, 0x2, 0x3, 0x4, 0x6, 0x7, 0xA, 0xB, 0xC, 0xD] : List Nibble)) :
    (decode op).isSome = true := by
  simp only [List.mem_cons, List.not_mem_nil, or_false] at h
  rcases h with h | h | h | h | h | h | h | h | h | h <;> simp [decode, h]

/-- Settles O4: each major opcode by its table; the lists of the spec are complements among the 16 nibbles. -/
theorem unknownOpcodeWords : Obligations.UnknownOpcodeWords := by
  have hminor : ∀ m : Nibble, m ∈ ([0x0, 0x1, 0x2, 0x3, 0x4, 0x5, 0x6, 0x7, 0xE] : List Nibble) ↔
      m ∉ ([0x8, 0x9, 0xA, 0xB, 0xC, 0xD, 0xF] : List Nibble) := by decide
  have hmajor : ∀ m : Nibble, m ∉ ([0x0, 0x5, 0x8, 0x9, 0xE, 0xF] : List Nibble) →
      m ∈ ([0x1, 0x2, 0x3, 0x4, 0x6, 0x7, 0xA, 0xB, 0xC, 0xD] : List Nibble) := by decide
  refine fun op => ⟨fun h => ?_, fun h => ?_, fun h => ?_, fun h => ?_, fun h => ?_, fun h => ?_⟩
  · rw [decode_of_major_zero h, isSome_decodeZero]
  · simp only [List.mem_cons, List.not_mem_nil, or_false] at h
    rcases h with h | h
    · rw [decode_of_major_five h, isSome_decodeMinorZero]
    · rw [decode_of_major_nine h, isSome_decodeMinorZero]
  · rw [decode_of_major_eight h, isSome_decodeArith, hminor]
  · rw [decode_of_major_key h, isSome_decodeKey]
  · rw [decode_of_major_misc h, isSome_decodeMisc]
  · exact isSome_decode_of_major (hmajor _ h)

end Sys2Proof
end

section
/-!
PROOFS. The decoder against the opcode map (30_encoding.md R63, R64). No word matches two rows of a well-formed map; an
instruction's word matches its own row; and a word that matches a row has that row's major opcode and sub-opcode, which
is all the decoder asks for.
-/
namespace Sys2Proof

/-! ## Rows -/

theorem OpRow.matches_iff {r : OpRow} {op : Word} : r.matches op = true ↔ op &&& r.mask = r.value := beq_iff_eq

/-- The bits both rows fix would have to be those of both values. -/
theorem OpRow.matches_eq_false_of_disjoint {r t : OpRow} {op : Word} (h : r.disjoint t = true)
    (hr : r.matches op = true) : t.matches op = false := by
  by_contra ht
  rw [Bool.not_eq_false, OpRow.matches_iff] at ht
  rw [OpRow.matches_iff] at hr
  refine absurd ?_ (bne_iff_ne.1 h)
  rw [← hr, ← ht]
  ext k
  cases hop : op[k] <;> cases hmask : r.mask[k] <;> simp [hop, hmask]

theorem pairwise_disjoint_of_opMapWellFormed {rs : List OpRow} (h : opMapWellFormed rs = true) :
    rs.Pairwise (fun r t => r.disjoint t = true) := by
  induction rs with
  | nil => exact .nil
  | cons r rs ih =>
    simp only [opMapWellFormed, Bool.and_eq_true, List.all_eq_true] at h
    obtain ⟨⟨-, hdisjoint⟩, hrest⟩ := h
    exact .cons hdisjoint (ih hrest)

/-- "Decode order is irrelevant" (30_encoding.md R63). -/
theorem eq_of_matches_of_opMapWellFormed {rs : List OpRow} (h : opMapWellFormed rs = true) {op : Word} :
    ∀ r ∈ rs, ∀ t ∈ rs, r.matches op = true → t.matches op = true → r = t := by
  have hpair : rs.Pairwise (fun r t => r.matches op = true → t.matches op = true → r = t) :=
    (pairwise_disjoint_of_opMapWellFormed h).imp fun hd hr ht =>
      absurd ((OpRow.matches_eq_false_of_disjoint hd hr).symm.trans ht) Bool.false_ne_true
  have hsymm : Std.Symm fun r t : OpRow => r.matches op = true → t.matches op = true → r = t :=
    ⟨fun _ _ himp ht hr => (himp hr ht).symm⟩
  exact fun r hr t ht => hpair.forall_of_forall (fun _ _ _ _ => rfl) hr ht

theorem opcodeMap_wellFormed : opMapWellFormed opcodeMap = true := by decide

/-- The map's rows are the rows of the instructions. -/
theorem opRow_mem_opcodeMap (i : Instr) : opRow i ∈ opcodeMap := by cases i <;> simp [opcodeMap, opRow]

theorem exists_eq_opRow : ∀ r ∈ opcodeMap, ∃ i, r = opRow i := by
  simp only [opcodeMap, List.forall_mem_append, List.forall_mem_cons, exists_apply_eq_apply', List.not_mem_nil,
    false_imp_iff, implies_true, and_self]

/-! ## The fields of a matching word: those the mask keeps whole are the row's -/

theorem fieldMajor_and (a b : Word) : fieldMajor (a &&& b) = fieldMajor a &&& fieldMajor b := BitVec.extractLsb'_and

theorem fieldN_and (a b : Word) : fieldN (a &&& b) = fieldN a &&& fieldN b := BitVec.extractLsb'_and

theorem fieldKk_and (a b : Word) : fieldKk (a &&& b) = fieldKk a &&& fieldKk b := BitVec.extractLsb'_and

section
variable {r : OpRow} {op : Word}

theorem OpRow.eq_value_of_matches (h : r.matches op = true) (hmask : r.mask = 0xFFFF) : op = r.value := by
  rw [← OpRow.matches_iff.1 h, hmask]
  exact BitVec.and_allOnes.symm

theorem OpRow.fieldMajor_of_matches (h : r.matches op = true) (hmask : fieldMajor r.mask = 0xF) :
    fieldMajor op = fieldMajor r.value := by
  rw [← OpRow.matches_iff.1 h, fieldMajor_and, hmask]
  exact BitVec.and_allOnes.symm

theorem OpRow.fieldN_of_matches (h : r.matches op = true) (hmask : fieldN r.mask = 0xF) :
    fieldN op = fieldN r.value := by
  rw [← OpRow.matches_iff.1 h, fieldN_and, hmask]
  exact BitVec.and_allOnes.symm

theorem OpRow.fieldKk_of_matches (h : r.matches op = true) (hmask : fieldKk r.mask = 0xFF) :
    fieldKk op = fieldKk r.value := by
  rw [← OpRow.matches_iff.1 h, fieldKk_and, hmask]
  exact BitVec.and_allOnes.symm

end

/-! ## The words of a row -/

theorem matches_opRow_encode (i : Instr) : (opRow i).matches (encode i) = true := by
  cases i with
  | cls => exact Laws.MaskMatch.cls
  | ret => exact Laws.MaskMatch.ret
  | jp | call | ldI | jpV0 => exact Laws.MaskMatch.addr_row _ _ _ rfl
  | seImm | sneImm | ldImm | addImm | rnd => exact Laws.MaskMatch.imm_row _ _ _ _ rfl
  | skp | sknp | ldVxDt | ldDtVx | ldStVx | ldVxK | addI | ldF | ldB | stRegs | ldRegs =>
    exact Laws.MaskMatch.fun_row _ _ _ _ rfl
  | seReg | sneReg | ldReg | orReg | andReg | xorReg | addReg | sub | shr | subn | shl =>
    exact Laws.MaskMatch.reg_row _ _ _ _ _ rfl
  | drw x y n => exact Laws.MaskMatch.drw x y n

/-- The decoder tests no bit that the row leaves open. -/
theorem isSome_decode_of_matches {i : Instr} {op : Word} (h : (opRow i).matches op = true) : (decode op).isSome = true := by
  cases i <;> dsimp only [opRow] at h
  case cls | ret => rw [OpRow.eq_value_of_matches h rfl]; rfl
  case seReg | sneReg | ldReg | orReg | andReg | xorReg | addReg | sub | shr | subn | shl =>
    rw [decode, OpRow.fieldMajor_of_matches h rfl, OpRow.fieldN_of_matches h rfl]; rfl
  case skp | sknp | ldVxDt | ldDtVx | ldStVx | ldVxK | addI | ldF | ldB | stRegs | ldRegs =>
    rw [decode, OpRow.fieldMajor_of_matches h rfl, OpRow.fieldKk_of_matches h rfl]; rfl
  all_goals rw [decode, OpRow.fieldMajor_of_matches h rfl]; rfl

/-- Settles O2: a decoded word is its instruction's encoding and so matches that row; the map is well formed, so its rows
exclude each other; and a word that matches some row decodes. -/
theorem decodeIsFullMatch : Obligations.DecodeIsFullMatch := by
  intro op
  have hrow : ∀ i, decode op = some i → (opRow i).matches op = true := fun i h =>
    encode_of_decode h ▸ matches_opRow_encode i
  refine ⟨fun i h => ⟨opRow_mem_opcodeMap i, hrow i h⟩, eq_of_matches_of_opMapWellFormed opcodeMap_wellFormed,
    fun hnone r hr => Bool.eq_false_iff.2 fun hmatch => ?_,
    fun hno => Option.eq_none_iff_forall_ne_some.2 fun i h => ?_⟩
  · obtain ⟨i, rfl⟩ := exists_eq_opRow r hr
    have hsome := isSome_decode_of_matches hmatch
    rw [hnone] at hsome
    cases hsome
  · exact Bool.false_ne_true ((hno _ (opRow_mem_opcodeMap i)).symm.trans (hrow i h))

end Sys2Proof
end

section
/-!
PROOFS. The `y` of SHR and SHL is a don't-care field (30_encoding.md R68): a write of another register goes through both
writes of a shift.
-/
namespace Sys2Proof.Machine

variable {x y : Nibble}

theorem State.setReg_comm (h : x ≠ y) (s : State) (a b : Byte) :
    (s.setReg x a).setReg y b = (s.setReg y b).setReg x a := by
  have hne : x.toNat ≠ y.toNat := mt BitVec.eq_of_toNat_eq h
  simp only [State.setReg, Vector.set_comm _ _ hne]

theorem State.reg_setReg_of_ne (h : y ≠ x) (s : State) (b : Byte) : (s.setReg y b).reg x = s.reg x := by
  rw [State.reg_setReg, if_neg h.symm]

theorem State.setFlagged_setReg (hx : y ≠ x) (hf : y ≠ vf) (s : State) (c : Bool) (a b : Byte) :
    (s.setReg y b).setFlagged x c a = (s.setFlagged x c a).setReg y b := by
  rw [State.setFlagged, State.setFlag, State.setReg_comm hf, State.setReg_comm hx]
  rfl

/-- Settles O5: no shift has `y` in its meaning, and `V[y]` is neither the register it reads nor one it writes. -/
theorem shiftIgnoresVy : Obligations.ShiftIgnoresVy := by
  refine fun x y y' b s => ⟨rfl, rfl, fun hx hf => ⟨?_, ?_⟩⟩
  · rw [exec, execShr, State.reg_setReg_of_ne hx, State.setFlagged_setReg hx hf]; rfl
  · rw [exec, execShl, State.reg_setReg_of_ne hx, State.setFlagged_setReg hx hf]; rfl

end Sys2Proof.Machine
end

section
/-!
PROOFS. Control transfer (40_control_transfer.md): what moving PC leaves unchanged, where a jump completes or faults, and
the rules of RET, JP, CALL, the register skips and JP V0.
-/
namespace Sys2Proof.Machine

variable {s : State}

/-! ## Jumps and skips, once for all of them -/

theorem State.setPc_wrotePc (s : State) (w : Word) : WrotePc w s (s.setPc w) :=
  ⟨rfl, fun _ _ => rfl, rfl, ⟨rfl, rfl⟩, ⟨rfl, rfl⟩, ⟨rfl, rfl⟩, fun _ _ => rfl, fun _ _ => rfl⟩

theorem jumpTo_of_even {target : Word} (h : target.toNat % 2 = 0) (i : Instr) (s t : State) :
    jumpTo target i s t = .next (t.setPc target) := jumpTo_next.2 ⟨(isOdd_eq_false_iff target).2 h, rfl⟩

theorem jumpTo_of_odd {target : Word} (h : target.toNat % 2 = 1) (i : Instr) (s t : State) :
    jumpTo target i s t = .fault (.pcAlignment s.pc (encode i) target) :=
  if_pos (by rw [isOdd_eq, decide_eq_true h])

/-- A skip moves PC only, by 4 exactly where its condition `c`, read as the proposition `p`, holds (R88). -/
theorem skipIf_wrotePc {c : Bool} {p : Prop} [Decidable p] (hc : c = true ↔ p) (s : State) :
    Answers (.next (s.skipIf c)) (fun t => WrotePc (s.pc + if p then 4 else 2) s t ∧ t.inputs = s.inputs) := by
  have hskip : s.skipIf c = s.setPc (s.pc + if p then 4 else 2) := by simp only [State.skipIf, hc]
  exact ⟨_, rfl, hskip ▸ s.setPc_wrotePc _, rfl⟩

/-- Settles O21: an even target completes, an odd one faults. -/
theorem jpRule : Obligations.JpRule := by
  intro nnn s
  refine ⟨decode_encode (.jp nnn), fun heven => ?_, fun hodd => ?_⟩
  · rw [← addrTarget_toNat] at heven
    exact ⟨_, jumpTo_of_even heven (.jp nnn) s s, s.setPc_wrotePc _, rfl⟩
  · rw [← addrTarget_toNat] at hodd
    exact jumpTo_of_odd hodd (.jp nnn) s s

/-- Settles O23: as for JP, the target being the unreduced sum. -/
theorem jpV0Rule : Obligations.JpV0Rule := by
  intro nnn s
  refine ⟨decode_encode (.jpV0 nnn), fun heven => ?_, fun hodd => ?_⟩
  · rw [← indexedTarget_toNat] at heven
    exact ⟨_, jumpTo_of_even heven (.jpV0 nnn) s s, indexedTarget_toNat nnn s, s.setPc_wrotePc _, rfl⟩
  · rw [← indexedTarget_toNat] at hodd
    exact jumpTo_of_odd hodd (.jpV0 nnn) s s

/-! ## The register skips -/

theorem decodeMinorZero_eq_none {m : Nibble} (h : m ≠ 0) (i : Instr) : decodeMinorZero i m = none := by
  rw [← Option.not_isSome_iff_eq_none, isSome_decodeMinorZero]
  exact h

/-- Settles O24: each skip is `skipIf` of its comparison; a minor opcode other than 0 is in neither table. -/
theorem skipRules : Obligations.SkipRules := by
  intro x y kk s
  refine ⟨fun m hm => ⟨?_, ?_⟩, decode_encode (.seImm x kk), decode_encode (.sneImm x kk), decode_encode (.seReg x y),
    decode_encode (.sneReg x y), skipIf_wrotePc beq_iff_eq s, skipIf_wrotePc bne_iff_ne s, skipIf_wrotePc beq_iff_eq s,
    skipIf_wrotePc bne_iff_ne s⟩
  · rw [decode_of_major_five (fieldMajor_packNibbles ..), fieldN_packNibbles, decodeMinorZero_eq_none hm]
  · rw [decode_of_major_nine (fieldMajor_packNibbles ..), fieldN_packNibbles, decodeMinorZero_eq_none hm]

/-! ## CALL and RET -/

/-- With room on the stack an odd target still faults (60_exceptions.md R178). -/
theorem exec_call_of_odd (h : s.sp.val < 16) {nnn : Addr} (hodd : nnn.toNat % 2 = 1) :
    exec (.call nnn) s = .fault (.pcAlignment s.pc (encode (.call nnn)) (addrTarget nnn)) := by
  rw [exec, execCall, if_neg (by omega), jumpTo_of_odd (by rwa [addrTarget_toNat])]

/-- Settles O22: the full stack first, then the target; the pushed state keeps all but SP, one entry and PC. -/
theorem callRule : Obligations.CallRule := by
  intro nnn s
  refine ⟨decode_encode (.call nnn), fun hfull => exec_call_of_full hfull nnn, fun hroom hodd => exec_call_of_odd hroom hodd,
    fun hroom heven => ?_⟩
  have hcall := exec_call_of_room hroom heven
  obtain ⟨hsp, hstack⟩ := exec_call_stack hcall
  exact ⟨_, hcall, rfl, hsp, hstack, fun r _ => State.reg_push s _ r, State.push_ireg s _,
    ⟨State.push_dt s _, State.push_st s _⟩, ⟨State.push_rs s _, State.push_kx s _⟩, State.pixel_congr (State.push_fb s _),
    fun a _ => State.readByte_congr (State.push_mem s _) a, State.push_inputs s _⟩

theorem exec_ret_of_empty (h : s.sp.val = 0) : exec .ret s = .fault (.stackUnderflow s.pc (encode .ret)) := if_pos h

theorem exec_ret_of_live (h : s.sp.val ≠ 0) : exec .ret s = .next (s.pop.setPc s.top) := if_neg h

theorem State.top_of_sp {k : Fin 16} (h : s.sp.val = k.val + 1) : s.top = s.stack[k.val] := by
  simp only [State.top, h, Nat.add_sub_cancel]

/-- Settles O20: RET pops the most recent live entry and writes none. -/
theorem retRule : Obligations.RetRule := by
  intro s
  refine ⟨decode_encode .ret, exec_ret_of_empty, fun k hk => ?_⟩
  have hsp : s.sp.val - 1 = k.val := by omega
  exact ⟨_, exec_ret_of_live (by omega), hsp, State.top_of_sp hk, rfl, fun _ _ => rfl, rfl, ⟨rfl, rfl⟩, ⟨rfl, rfl⟩,
    fun _ _ => rfl, fun _ _ => rfl, rfl⟩

/-- Settles O25: CALL leaves `PC + 2` at the old SP, and RET pops that entry. -/
theorem retReturnsAfterCall : Obligations.RetReturnsAfterCall := by
  intro nnn s t u hcall ⟨husp, hustack⟩
  obtain ⟨hroom, -⟩ := exec_next hcall
  obtain ⟨htsp, htstack⟩ := exec_call_stack hcall
  obtain ⟨-, -, hpop⟩ := retRule u
  obtain ⟨w, hret, hwsp, hwpc, hwstack, -⟩ := hpop ⟨s.sp.val, hroom⟩ (husp ▸ htsp)
  have hentry : ∀ k : Fin 16, u.stack[k.val] = if k.val = s.sp.val then s.pc + 2 else s.stack[k.val] :=
    hustack ▸ htstack
  refine ⟨w, hret, ?_, Fin.ext hwsp, fun k hk => ?_⟩
  · rw [hwpc, hentry, if_pos rfl]
  · simp only [hwstack, hentry, if_neg (Nat.ne_of_lt hk)]

end Sys2Proof.Machine
end

section
/-!
PROOFS. Register loads, the 8-bit ALU and the random byte (41_alu.md): what a register write and a flagged write leave
unchanged, the results and flags as exact numbers, and the rule of each instruction.
-/
namespace Sys2Proof.Machine

variable {x : Nibble} {b : Byte} {c : Bool} {s t : State}

/-! ## The register write, once for all of them -/

theorem State.setReg_advance_wroteReg (x : Nibble) (b : Byte) (s : State) : WroteReg x b s (s.setReg x b).advance :=
  ⟨State.reg_setReg_self s x b, fun _ hr => State.reg_setReg_of_ne (Ne.symm hr) s b, rfl,
    ⟨rfl, ⟨rfl, rfl⟩, ⟨rfl, rfl⟩, ⟨rfl, rfl⟩, fun _ _ => rfl, fun _ _ => rfl⟩, rfl⟩

theorem WroteReg.reg_eq (h : WroteReg x b s t) : t.reg x = b := h.1

/-- The value that `WroteReg` speaks of can be read back from the next state. -/
theorem WroteReg.self (h : WroteReg x b s t) : WroteReg x (t.reg x) s t := by
  rwa [h.reg_eq]

/-- The next state after a register write whose result is known bit by bit. -/
theorem setReg_answers_of_bits {f : Nat → Bool} (hb : ∀ k, b.getLsbD k = f k) (x : Nibble) (s : State) :
    Answers (.next (s.setReg x b).advance) (fun t =>
      WroteReg x (t.reg x) s t ∧ ∀ k, (t.reg x).getLsbD k = f k) := by
  have hwrote := s.setReg_advance_wroteReg x b
  exact ⟨_, rfl, hwrote.self, fun k => by rw [hwrote.reg_eq, hb]⟩

/-- Settles O27: both are a register write. -/
theorem loadRegisterRules : Obligations.LoadRegisterRules := fun x y kk s =>
  ⟨decode_encode (.ldImm x kk), decode_encode (.ldReg x y), ⟨_, rfl, s.setReg_advance_wroteReg x kk⟩,
    ⟨_, rfl, s.setReg_advance_wroteReg x (s.reg y)⟩⟩

/-- Settles O28: the bits of each operation on bytes. -/
theorem logicRules : Obligations.LogicRules := fun x y s =>
  ⟨decode_encode (.orReg x y), decode_encode (.andReg x y), decode_encode (.xorReg x y),
    setReg_answers_of_bits (fun _ => BitVec.getLsbD_or) x s, setReg_answers_of_bits (fun _ => BitVec.getLsbD_and) x s,
    setReg_answers_of_bits (fun _ => BitVec.getLsbD_xor) x s⟩

/-- Settles O29: addition of bytes is modulo 256, and no flag is written. -/
theorem addImmediateRule : Obligations.AddImmediateRule := by
  intro x kk s
  have hwrote := s.setReg_advance_wroteReg x (s.reg x + kk)
  exact ⟨decode_encode (.addImm x kk), _, rfl, by rw [hwrote.reg_eq, BitVec.toNat_add], hwrote.self⟩

/-- Settles O33: a register write after one sample, which changes the count of inputs only. -/
theorem randomRule : Obligations.RandomRule := by
  intro x kk s
  obtain ⟨hreg, hkept, hpc, hframe, hinputs⟩ := s.sample.setReg_advance_wroteReg x (s.randByte &&& kk)
  exact ⟨decode_encode (.rnd x kk), _, rfl, ⟨s.randByte, rfl, fun _ => by rw [hreg, BitVec.getLsbD_and]⟩,
    hkept, hpc, hframe, hinputs⟩

/-! ## The flag and the result -/

theorem State.setFlagged_advance_wroteFlagged (x : Nibble) (c : Bool) (b : Byte) (s : State) :
    WroteFlagged x c b s (s.setFlagged x c b).advance := by
  have hreg := s.reg_setFlagged x c b
  refine ⟨?_, fun hx => ?_, fun r ⟨hx, hf⟩ => ?_, rfl,
    ⟨rfl, ⟨rfl, rfl⟩, ⟨rfl, rfl⟩, ⟨rfl, rfl⟩, fun _ _ => rfl, fun _ _ => rfl⟩, rfl⟩
  · rw [State.reg_advance, hreg, if_pos rfl]
  · rw [State.reg_advance, hreg, if_neg hx.symm, if_pos rfl]
  · rw [State.reg_advance, hreg, if_neg hx, if_neg hf]

/-- The next state after a flagged write of the number `n`, whose flag is set exactly where `p` holds. -/
theorem setFlagged_answers {n : Nat} {p : Prop} [Decidable p] (hb : b.toNat = n) (hc : c = decide p) (x : Nibble)
    (s : State) : Answers (.next (s.setFlagged x c b).advance) (fun t =>
      (t.reg x).toNat = n ∧ WroteFlagged x (decide p) (t.reg x) s t) := by
  have hwrote := s.setFlagged_advance_wroteFlagged x c b
  have ⟨hreg, _⟩ := hwrote
  exact ⟨_, rfl, by rw [hreg, hb], by rwa [hreg, ← hc]⟩

/-- The difference of two bytes is exact where there is no borrow, and 256 more than exact where there is one. -/
theorem toNat_sub_eq_ite (a b : Byte) :
    (a - b).toNat = if a.toNat ≥ b.toNat then a.toNat - b.toNat else a.toNat + 256 - b.toNat := by
  split
  next hle => exact BitVec.toNat_sub_of_le hle
  next hlt =>
    rw [BitVec.toNat_sub_of_lt (Nat.not_le.1 hlt)]
    omega

theorem shrFlag_eq (a : Byte) : shrFlag a = decide (a.toNat % 2 = 1) := Nat.testBit_zero a.toNat

theorem shlFlag_eq (a : Byte) : shlFlag a = decide (128 ≤ a.toNat) := BitVec.msb_eq_decide a

theorem toNat_ushiftRight_one (a : Byte) : (a >>> 1).toNat = a.toNat / 2 := by
  rw [BitVec.toNat_ushiftRight, Nat.shiftRight_one]

theorem toNat_shiftLeft_one (a : Byte) : (a <<< 1).toNat = a.toNat * 2 % 256 := by
  rw [BitVec.toNat_shiftLeft, Nat.shiftLeft_eq]

/-- Settles O30: the sum modulo 256, with the carry as the flag. -/
theorem addRegisterRule : Obligations.AddRegisterRule := fun x y s =>
  ⟨decode_encode (.addReg x y), setFlagged_answers (BitVec.toNat_add (s.reg x) (s.reg y)) rfl x s⟩

/-- Settles O31: one subtraction with the operands in either order, and the flag where there is no borrow. -/
theorem subtractRules : Obligations.SubtractRules := fun x y s =>
  ⟨decode_encode (.sub x y), decode_encode (.subn x y),
    setFlagged_answers (toNat_sub_eq_ite (s.reg x) (s.reg y)) rfl x s,
    setFlagged_answers (toNat_sub_eq_ite (s.reg y) (s.reg x)) rfl x s⟩

/-- Settles O32: half and double, with bit 0 and bit 7 as the flags. -/
theorem shiftRules : Obligations.ShiftRules := fun x y s =>
  ⟨decode_encode (.shr x y), decode_encode (.shl x y),
    setFlagged_answers (toNat_ushiftRight_one (s.reg x)) (shrFlag_eq (s.reg x)) x s,
    setFlagged_answers (toNat_shiftLeft_one (s.reg x)) (shlFlag_eq (s.reg x)) x s⟩

end Sys2Proof.Machine
end

section
/-!
PROOFS. The index register and the memory instructions (42_index_and_memory.md): what a write of I, a store and a load of
registers leave unchanged, the range check at the highest address, and the rule of each instruction.
-/
namespace Sys2Proof.Machine

variable {s t : State}

/-! ## The write of I, once for its three instructions -/

/-- The next state after I is set to the number `n`. -/
theorem setIreg_answers {w : Word} {n : Nat} (hw : w.toNat = n) (s : State) :
    Answers (.next (s.setIreg w).advance) (fun t => t.ireg.toNat = n ∧ t.pc = s.pc + 2 ∧
      RegsKept (fun _ => True) s t ∧ StackKept s t ∧ TimersKept s t ∧ WaitKept s t ∧ ScreenKept s t ∧
      MemKept (fun _ => True) s t ∧ t.inputs = s.inputs) :=
  ⟨_, rfl, hw, rfl, fun _ _ => rfl, ⟨rfl, rfl⟩, ⟨rfl, rfl⟩, ⟨rfl, rfl⟩, fun _ _ => rfl, fun _ _ => rfl, rfl⟩

/-- The product is never reduced: it is at most 1275. -/
theorem glyphAddr_toNat (b : Byte) : (glyphAddr b).toNat = b.toNat * 5 := by
  have := b.isLt
  rw [glyphAddr, BitVec.toNat_ofNat, Nat.mod_eq_of_lt (by omega)]

/-- Settles O35: the address field extended, and the product of `glyphAddr_toNat`. -/
theorem indexLoadRules : Obligations.IndexLoadRules := fun x nnn s =>
  ⟨decode_encode (.ldI nnn), decode_encode (.ldF x), setIreg_answers (addrTarget_toNat nnn) s,
    setIreg_answers (glyphAddr_toNat (s.reg x)) s⟩

/-- Settles O36: addition of words is modulo 65536, and no flag is written. -/
theorem addIndexRule : Obligations.AddIndexRule := by
  intro x s
  have hsum : (s.ireg + (s.reg x).setWidth 16).toNat = (s.ireg.toNat + (s.reg x).toNat) % 65536 := by
    rw [BitVec.toNat_add, BitVec.toNat_setWidth_of_le (by decide)]
  exact ⟨decode_encode (.addI x), setIreg_answers hsum s⟩

/-! ## The range check, at the highest address (20_memory.md R47) -/

theorem withData_succ_of_le {n : Nat} (h : s.ireg.toNat + n ≤ 0xFFF) (i : Instr) (done : Result) :
    withData (n + 1) i s done = done := withData_of_ok i done (.inr (Nat.succ_le_succ h))

theorem withData_succ_of_gt {n : Nat} (h : 0xFFF < s.ireg.toNat + n) (i : Instr) (done : Result) :
    withData (n + 1) i s done = .fault (.dataAddress s.pc (encode i) (s.ireg.toNat + n)) :=
  withData_of_not_ok i done n.succ_ne_zero (Nat.succ_lt_succ h)

/-! ## The two stores -/

theorem State.readByte_store_add (hm : Memory.wf s.mem = true) {a j : Nat} {bs : List Byte} (ha : a + bs.length ≤ 0x1000)
    (hj : j < bs.length) : (s.store a bs).readByte (a + j) = bs.getD j 0 := by
  rw [State.readByte_store hm bs ha, if_pos (by omega), Nat.add_sub_cancel_left]

/-- What a store of the bytes `I` to `I + n` and the advance leave unchanged. -/
theorem State.store_advance_kept (hm : Memory.wf s.mem = true) {n : Nat} {bs : List Byte} (hlen : bs.length = n + 1)
    (h : s.ireg.toNat + n ≤ 0xFFF) (ht : t = (s.store s.ireg.toNat bs).advance) :
    MemKept (fun a => a < s.ireg.toNat ∨ s.ireg.toNat + n < a) s t ∧ t.pc = s.pc + 2 ∧ t.ireg = s.ireg ∧
      RegsKept (fun _ => True) s t ∧ StackKept s t ∧ TimersKept s t ∧ WaitKept s t ∧ ScreenKept s t ∧
      t.inputs = s.inputs := by
  subst ht
  refine ⟨fun a ha => ?_, rfl, rfl, fun _ _ => rfl, ⟨rfl, rfl⟩, ⟨rfl, rfl⟩, ⟨rfl, rfl⟩, fun _ _ => rfl, rfl⟩
  by_contra hne
  have hrange := State.mem_range_of_store_changed hm (by omega) hne
  omega

/-- A number no larger than a byte is a byte. -/
theorem toNat_ofNat_of_le_byte {n : Nat} {b : Byte} (h : n ≤ b.toNat) : (BitVec.ofNat 8 n).toNat = n := by
  rw [BitVec.toNat_ofNat, Nat.mod_eq_of_lt (h.trans_lt b.isLt)]

/-- Settles O37: each of the three digits is no larger than the byte, so its own byte holds it exactly. -/
theorem bcdRule : Obligations.BcdRule := by
  intro x s hm
  refine ⟨decode_encode (.ldB x), fun hgt => withData_succ_of_gt hgt (.ldB x) _, fun hle => ?_⟩
  have hread : ∀ j < 3, (s.store s.ireg.toNat (bcdDigits (s.reg x))).readByte (s.ireg.toNat + j) =
      (bcdDigits (s.reg x)).getD j 0 := fun j hj => State.readByte_store_add hm (Nat.succ_le_succ hle) hj
  refine ⟨_, withData_succ_of_le hle (.ldB x) _, ?_, ?_, ?_, State.store_advance_kept hm rfl hle rfl⟩
  · exact (congrArg BitVec.toNat (hread 0 (by decide))).trans (toNat_ofNat_of_le_byte (Nat.div_le_self ..))
  · exact (congrArg BitVec.toNat (hread 1 (by decide))).trans
      (toNat_ofNat_of_le_byte ((Nat.mod_le ..).trans (Nat.div_le_self ..)))
  · exact (congrArg BitVec.toNat (hread 2 (by decide))).trans (toNat_ofNat_of_le_byte (Nat.mod_le ..))

/-- `exec_stRegs_readByte`, by the register and not by its number. -/
theorem exec_stRegs_readByte_reg {x r : Nibble} (hm : Memory.wf s.mem = true) (h : exec (.stRegs x) s = .next t)
    (hr : r.toNat ≤ x.toNat) : t.readByte (s.ireg.toNat + r.toNat) = s.reg r := by
  rw [exec_stRegs_readByte hm h hr, BitVec.ofNat_toNat, BitVec.setWidth_eq]

/-- Settles O38: the bytes stored are those of `exec_stRegs_readByte`. -/
theorem storeRegistersRule : Obligations.StoreRegistersRule := by
  intro x s hm
  refine ⟨decode_encode (.stRegs x), fun hgt => withData_succ_of_gt hgt (.stRegs x) _, fun hle => ?_⟩
  have hnext : exec (.stRegs x) s = .next (s.store s.ireg.toNat (regsBelow s (regCount x))).advance :=
    withData_succ_of_le hle (.stRegs x) _
  exact ⟨_, hnext, fun r hr => exec_stRegs_readByte_reg hm hnext hr,
    State.store_advance_kept hm (regsBelow_length s _) hle rfl⟩

/-! ## The load of registers -/

theorem State.loadRegs_allButRegsKept (s : State) (a n : Nat) : AllButRegsKept s (s.loadRegs a n) :=
  ⟨s.loadRegs_ireg a n, ⟨s.loadRegs_sp a n, s.loadRegs_stack a n⟩, ⟨s.loadRegs_dt a n, s.loadRegs_st a n⟩,
    ⟨s.loadRegs_rs a n, s.loadRegs_kx a n⟩, State.pixel_congr (s.loadRegs_fb a n),
    fun b _ => State.readByte_congr (s.loadRegs_mem a n) b⟩

/-- Settles O39: `reg_loadRegs` up to `x` and above it. -/
theorem loadRegistersRule : Obligations.LoadRegistersRule := by
  intro x s
  refine ⟨decode_encode (.ldRegs x), fun hgt => withData_succ_of_gt hgt (.ldRegs x) _, fun hle => ?_⟩
  have hreg := s.reg_loadRegs s.ireg.toNat (regCount x) x.isLt
  refine ⟨_, withData_succ_of_le hle (.ldRegs x) _, fun r hr => ?_, fun r hr => ?_,
    congrArg (· + 2) (s.loadRegs_pc ..), s.loadRegs_allButRegsKept .., s.loadRegs_inputs ..⟩
  · exact (hreg r).trans (if_pos (Nat.lt_succ_of_le hr))
  · exact (hreg r).trans (if_neg (Nat.not_lt.2 hr))

/-- Settles O40: `Fx65` reads at `I + r` what `Fx55` stored there. -/
theorem storeLoadRoundTrip : Obligations.StoreLoadRoundTrip := by
  intro x s t u hm h hmem hI
  have hle : u.ireg.toNat + x.toNat ≤ 0xFFF := hI ▸ Nat.le_of_succ_le_succ (exec_next h).1
  obtain ⟨-, -, hload⟩ := loadRegistersRule x u
  obtain ⟨w, hw, hreg, -⟩ := hload hle
  refine ⟨w, hw, fun r hr => ?_⟩
  calc w.reg r = t.readByte (s.ireg.toNat + r.toNat) := by rw [hreg r hr, State.readByte_congr hmem, hI]
    _ = s.reg r := exec_stRegs_readByte_reg hm h hr

end Sys2Proof.Machine
end

section
/-!
PROOFS. The display (43_display.md): the cleared framebuffer, the cells and the flag after a draw in the terms of
`spriteHits`, the order in which the pixels of a sprite come, and the statements about CLS and DRW.
-/
namespace Sys2Proof.Machine

variable {x y n : Nibble} {s t : State}

/-! ## CLS -/

@[simp] theorem Framebuffer.cell_replicate_zero (row col : Nat) :
    Framebuffer.cell (Vector.replicate 32 0) row col = false := by
  unfold Framebuffer.cell
  split
  · rw [Vector.getElem_replicate]; exact BitVec.getLsbD_zero
  · rfl

/-- Settles O42: the next state differs in the framebuffer and PC only. -/
theorem clearScreenRule : Obligations.ClearScreenRule := fun _ =>
  ⟨decode_encode .cls, _, rfl, Framebuffer.cell_replicate_zero, fun _ _ => rfl, rfl, rfl, ⟨rfl, rfl⟩, ⟨rfl, rfl⟩,
    ⟨rfl, rfl⟩, fun _ _ => rfl, rfl⟩

/-! ## The pixels of a sprite, by cell -/

theorem Pixel.inGrid_iff {p : Pixel} : p.inGrid = true ↔ p.col ≤ 63 ∧ p.row ≤ 31 := by
  simp only [Pixel.inGrid, Bool.and_eq_true, decide_eq_true_eq]

theorem forall_inGrid_iff : (∀ p ∈ drwPixels x y n s, p.inGrid = true) ↔ SpriteInGrid x y n s := by
  constructor
  · exact fun h r c hset => Pixel.inGrid_iff.1 (h _ (mem_drwPixels.2 ⟨r, c, hset, rfl⟩))
  · intro h p hp
    obtain ⟨r, c, hset, rfl⟩ := mem_drwPixels.1 hp
    exact Pixel.inGrid_iff.2 (h r c hset)

theorem mem_drwPixels_iff_spriteHits {row col : Nat} :
    Pixel.mk col row ∈ drwPixels x y n s ↔ spriteHits x y n s row col = true := by
  simp only [mem_drwPixels, spriteHits, Bool.and_eq_true, decide_eq_true_eq, Pixel.mk.injEq]
  constructor
  · rintro ⟨r, c, hset, rfl, rfl⟩
    simpa using hset
  · rintro ⟨⟨hy, hx⟩, hset⟩
    exact ⟨_, _, hset, (Nat.add_sub_cancel' hx).symm, (Nat.add_sub_cancel' hy).symm⟩

theorem SpriteInGrid.lt_of_spriteHits (hg : SpriteInGrid x y n s) {row col : Nat}
    (h : spriteHits x y n s row col = true) : row < 32 ∧ col < 64 := by
  have hp := Pixel.inGrid_iff.1 (forall_inGrid_iff.2 hg _ (mem_drwPixels_iff_spriteHits.2 h))
  exact ⟨Nat.lt_succ_of_le hp.2, Nat.lt_succ_of_le hp.1⟩

/-- The sprite is read from I and memory alone. -/
theorem spriteSet_congr (hI : t.ireg = s.ireg) (hm : MemKept (fun _ => True) s t) (r c : Nat) :
    spriteSet n t r c = spriteSet n s r c := by
  rw [spriteSet, spriteSet, hI, hm _ trivial]

/-! ## The draw -/

theorem spriteReadable_iff : SpriteReadable n s ↔ n.toNat = 0 ∨ s.ireg.toNat + n.toNat ≤ 0x1000 := by
  have hn : n = 0 ↔ n.toNat = 0 := BitVec.toNat_inj.symm
  rw [SpriteReadable, hn]
  omega

/-- Where a draw completes, and with which state. -/
theorem exec_drw_next_iff : exec (.drw x y n) s = .next t ↔
    SpriteReadable n s ∧ SpriteInGrid x y n s ∧ t = (s.draw (drwPixels x y n s)).advance := by
  rw [spriteReadable_iff, ← forall_inGrid_iff]
  constructor
  · exact exec_next
  · rintro ⟨hr, hg, rfl⟩
    exact (withData_of_ok _ _ hr).trans (drawChecked_of_inGrid _ s hg)

@[simp] theorem State.pixel_advance (s : State) (row col : Nat) : s.advance.pixel row col = s.pixel row col := rfl

/-- Outside the grid there is no cell to toggle, and the sprite targets none. -/
theorem State.pixel_draw (hg : SpriteInGrid x y n s) (row col : Nat) :
    (s.draw (drwPixels x y n s)).pixel row col = (s.pixel row col != spriteHits x y n s row col) := by
  change Framebuffer.cell (drawPixels s.fb false (drwPixels x y n s)).1 row col =
    (Framebuffer.cell s.fb row col != spriteHits x y n s row col)
  by_cases hcell : row < 32 ∧ col < 64
  · obtain ⟨hrow, hcol⟩ := hcell
    rw [drawPixels_cell _ (drwPixels_nodup x y n s) _ _ _ _ hrow hcol]
    simp only [mem_drwPixels_iff_spriteHits, Bool.decide_eq_true, Bool.bne_eq_xor]
  · have hmiss : spriteHits x y n s row col = false :=
      Bool.eq_false_iff.2 fun h => hcell (hg.lt_of_spriteHits h)
    have hnone : ∀ fb, Framebuffer.cell fb row col = false := fun fb => by
      rcases Nat.lt_or_ge row 32 with hrow | hrow
      · exact Framebuffer.cell_of_col (Nat.le_of_not_lt fun hcol => hcell ⟨hrow, hcol⟩)
      · exact Framebuffer.cell_of_row hrow
    rw [hmiss, hnone, hnone]; rfl

/-- VF after a draw is the collision. -/
theorem State.reg_vf_draw (hg : SpriteInGrid x y n s) :
    ((∃ row col, spriteHits x y n s row col = true ∧ s.pixel row col = true) →
        (s.draw (drwPixels x y n s)).reg 0xF = 1) ∧
      ((∀ row col, spriteHits x y n s row col = true → s.pixel row col = false) →
        (s.draw (drwPixels x y n s)).reg 0xF = 0) := by
  have hflag := drawPixels_hit _ (drwPixels_nodup x y n s) (forall_inGrid_iff.2 hg) s.fb false
  rw [State.draw, State.reg_setFlag, if_pos rfl]
  refine ⟨fun ⟨row, col, hhit, hpix⟩ => ?_, fun hclear => ?_⟩
  · rw [if_pos (hflag.2 (.inr ⟨_, mem_drwPixels_iff_spriteHits.2 hhit, hpix⟩))]
  · refine if_neg fun h => ?_
    obtain h | ⟨p, hp, hpix⟩ := hflag.1 h
    · cases h
    · exact Bool.eq_false_iff.1 (hclear p.row p.col (mem_drwPixels_iff_spriteHits.1 hp)) hpix

/-- Settles O43: the cells by `pixel_draw`, VF by `reg_vf_draw`; no other field is written. -/
theorem drawRule : Obligations.DrawRule := by
  refine fun x y n s => ⟨decode_encode (.drw x y n), fun hr hg => ?_⟩
  obtain ⟨hset, hclear⟩ := State.reg_vf_draw hg
  exact ⟨_, exec_drw_next_iff.2 ⟨hr, hg, rfl⟩, State.pixel_draw hg, hset, hclear,
    fun r hne => (State.reg_setFlag _ _ r).trans (if_neg hne), rfl, rfl, ⟨rfl, rfl⟩, ⟨rfl, rfl⟩, ⟨rfl, rfl⟩,
    fun _ _ => rfl, rfl⟩

/-- Settles O45: the second draw is the same sprite at the same place, and it finds each targeted cell inverted. -/
theorem drawTwiceRestores : Obligations.DrawTwiceRestores := by
  intro x y n s t hx hy h
  obtain ⟨hr, hg, -⟩ := exec_drw_next_iff.1 h
  obtain ⟨-, hfirst⟩ := drawRule x y n s
  obtain ⟨t', ht', hpix, -, -, hreg, -, hI, -, -, -, hmem, -⟩ := hfirst hr hg
  cases h.symm.trans ht'
  have hhits : ∀ row col, spriteHits x y n t row col = spriteHits x y n s row col := fun row col => by
    rw [spriteHits, spriteHits, spriteSet_congr hI hmem, hreg x hx, hreg y hy]
  have hgt : SpriteInGrid x y n t := fun r c hset => by
    rw [hreg x hx, hreg y hy]
    exact hg r c (spriteSet_congr hI hmem r c ▸ hset)
  have hrt : SpriteReadable n t := by rwa [SpriteReadable, hI]
  obtain ⟨-, hsecond⟩ := drawRule x y n t
  obtain ⟨u, hu, hpixu, hset, hclear, -⟩ := hsecond hrt hgt
  refine ⟨u, hu, fun row col => ?_, fun ⟨row, col, hhit, hoff⟩ => hset ⟨row, col, ?_, ?_⟩,
    fun hall => hclear fun row col hhit => ?_⟩
  · rw [hpixu, hpix, hhits, Bool.bne_assoc, bne_self_eq_false, Bool.bne_false]
  · rw [hhits, hhit]
  · rw [hpix, hhit, hoff]; rfl
  · rw [hhits] at hhit
    rw [hpix, hhit, hall row col hhit]; rfl

/-! ## The count of set cells -/

/-- Toggling the elements `h` picks: those switched off leave the count, those switched on join it. -/
theorem countP_bne_add_countP_and {α : Type} (p h : α → Bool) (l : List α) :
    l.countP (fun a => p a != h a) + l.countP (fun a => h a && p a) = l.countP p + l.countP (fun a => h a && !p a) := by
  induction l with
  | nil => rfl
  | cons a l ih =>
    have hcell : ∀ b c : Bool, ((if b != c then 1 else 0) + if c && b then 1 else 0 : Nat) =
        (if b then 1 else 0) + if c && !b then 1 else 0 := by decide
    have := hcell (p a) (h a)
    simp only [List.countP_cons]
    omega

/-- Settles O46: the cells after the draw are those of `pixel_draw`, counted over the grid. -/
theorem drawCountsSetCells : Obligations.DrawCountsSetCells := by
  intro x y n s t h
  obtain ⟨-, hg, rfl⟩ := exec_drw_next_iff.1 h
  simp only [State.pixel_advance, State.pixel_draw hg]
  exact countP_bne_add_countP_and (fun c : Nat × Nat => s.pixel c.1 c.2) (fun c => spriteHits x y n s c.1 c.2) _

/-! ## The faults of a draw -/

/-- Rows outer, columns inner, both ascending (43_display.md R141). -/
def Pixel.Before (p q : Pixel) : Prop := p.row < q.row ∨ p.row = q.row ∧ p.col < q.col

theorem rowPixels_pairwise_before (x0 row : Nat) (b : Byte) : (rowPixels x0 row b).Pairwise Pixel.Before :=
  List.pairwise_map.2 <| (List.pairwise_lt_range.filter _).imp fun hlt => .inr ⟨rfl, Nat.add_lt_add_left hlt x0⟩

theorem spritePixels_pairwise_before (x0 row : Nat) (bs : List Byte) :
    (spritePixels x0 row bs).Pairwise Pixel.Before := by
  induction bs generalizing row with
  | nil => exact .nil
  | cons b bs ih =>
    refine List.pairwise_append.2 ⟨rowPixels_pairwise_before x0 row b, ih (row + 1), fun p hp q hq => .inl ?_⟩
    obtain ⟨-, -, -, rfl⟩ := mem_rowPixels.1 hp
    obtain ⟨r, -, -, -, -, -, rfl⟩ := mem_spritePixels.1 hq
    show row < row + 1 + r
    omega

theorem drwPixels_pairwise_before (x y n : Nibble) (s : State) : (drwPixels x y n s).Pairwise Pixel.Before :=
  spritePixels_pairwise_before _ _ _

/-- In a list in order, an element that satisfies `f`, while those before it do not, is the first that does. -/
theorem find?_eq_some_of_pairwise {α : Type} {R : α → α → Prop} {f : α → Bool} {l : List α} (hl : l.Pairwise R) {a : α}
    (ha : a ∈ l) (hf : f a = true) (hbefore : ∀ b ∈ l, R b a → f b = false) : l.find? f = some a := by
  obtain ⟨as, bs, rfl⟩ := List.append_of_mem ha
  obtain ⟨-, -, hcross⟩ := List.pairwise_append.1 hl
  refine List.find?_eq_some_iff_append.2 ⟨hf, as, bs, rfl, fun b hb => ?_⟩
  rw [hbefore b (List.mem_append_left _ hb) (hcross b hb a List.mem_cons_self)]
  rfl

theorem drawChecked_of_find? {ps : List Pixel} {p : Pixel} (h : ps.find? (fun q => !q.inGrid) = some p) (i : Instr)
    (s : State) : drawChecked ps i s = .fault (.displayBounds s.pc (encode i) p.col p.row) := by
  rw [drawChecked, h]; rfl

/-- Settles O44: the range check comes first; the pixels come in order, so the bounds check finds the first outside. -/
theorem drawFaults : Obligations.DrawFaults := by
  refine fun x y n s => ⟨fun hn hgt => ?_, fun hr r c hset hout hfirst => ?_⟩
  · have hpos : n.toNat ≠ 0 := fun h => hn (BitVec.eq_of_toNat_eq h)
    rw [Nat.add_sub_assoc (by omega)]
    exact withData_of_not_ok (.drw x y n) _ hpos (by omega)
  · have hfind : (drwPixels x y n s).find? (fun q => !q.inGrid) =
        some ⟨(s.reg x).toNat + c, (s.reg y).toNat + r⟩ := by
      refine find?_eq_some_of_pairwise (drwPixels_pairwise_before x y n s) (mem_drwPixels.2 ⟨r, c, hset, rfl⟩) ?_ ?_
      · rw [Bool.not_eq_true', Bool.eq_false_iff, ne_eq, Pixel.inGrid_iff]
        exact hout
      · intro q hq hbefore
        obtain ⟨r', c', hset', rfl⟩ := mem_drwPixels.1 hq
        rw [Bool.not_eq_false', Pixel.inGrid_iff]
        exact hfirst r' c' hset' (by simpa [Pixel.Before] using hbefore)
    exact (withData_of_ok _ _ (spriteReadable_iff.1 hr)).trans (drawChecked_of_find? hfind _ s)

end Sys2Proof.Machine
end

section
/-!
PROOFS. The keypad and the timers (44_keypad_and_timers.md): the step at an instruction, the key skips, the wait for a key
from `Fx0A` to the key press, and the timer moves with the tick that follows them.
-/
namespace Sys2Proof.Machine

variable {i : Instr} {x : Nibble} {s : State}

/-- A step is the execute stage of the instruction at PC, then its tick stage (60_exceptions.md R172). -/
theorem AtInstr.step_eq (h : AtInstr i s) : step s = tickAfter i (exec i s) := by
  obtain ⟨hrun, hfetch⟩ := h
  rw [step_run hrun, hfetch]
  exact congrArg CycleResult.outcome (cycleOf_some (decode_encode i) s)

/-! ## The key skips -/

/-- Settles O48: a value above 15 names no key; otherwise each is a skip after one sample, on the level or its negation. -/
theorem keySkipRules : Obligations.KeySkipRules := by
  intro x s
  refine ⟨decode_encode (.skp x), decode_encode (.sknp x), fun hno => ⟨?_, ?_⟩, fun hkey => ⟨_, rfl, ?_, ?_⟩⟩
  · rw [exec, execSkp, withKey_of_no_key _ _ _ hno]; rfl
  · rw [exec, execSknp, withKey_of_no_key _ _ _ hno]; rfl
  · rw [exec, execSkp, withKey_of_key _ _ _ hkey]
    exact skipIf_wrotePc Iff.rfl s.sample
  · rw [exec, execSknp, withKey_of_key _ _ _ hkey]
    have hskip := skipIf_wrotePc (Bool.not_iff_not (b := s.keyHeld ((s.reg x).setWidth 4))) s.sample
    rw [ite_not] at hskip
    exact hskip

/-! ## The wait for a key -/

theorem AtInstr.step_ldVxK (h : AtInstr (.ldVxK x) s) : step s = .next (s.beginWait x) := h.step_eq

theorem keyPress_of_await (h : s.rs = .awaitKey) (k : Nibble) :
    keyPress k s = (s.setReg s.kx (k.setWidth 8)).advance.tick.endWait := by
  unfold keyPress
  rw [h]

/-- Settles O49: the wait has no tick; the key press writes Vx, advances PC and makes up for the tick. -/
theorem keyWaitRule : Obligations.KeyWaitRule := by
  refine fun x s => ⟨decode_encode (.ldVxK x), ?_, fun hat => ⟨_, hat.step_ldVxK, rfl, rfl, ⟨rfl, rfl⟩, ?_, fun k => ?_⟩⟩
  · exact ⟨s.beginWait x, rfl, rfl, rfl, rfl, fun _ _ => rfl, rfl, ⟨rfl, rfl⟩, ⟨rfl, rfl⟩, fun _ _ => rfl,
      fun _ _ => rfl, rfl⟩
  · rw [cycle_of_await rfl]
  · rw [keyPress_of_await rfl]
    exact ⟨State.reg_setReg_self _ x _, fun _ hr => State.reg_setReg_of_ne (Ne.symm hr) (s.beginWait x) _, rfl,
      countDown_toNat s.dt, countDown_toNat s.st, rfl⟩

/-! ## The timer moves -/

theorem AtInstr.step_ldVxDt (h : AtInstr (.ldVxDt x) s) : step s = .next (s.setReg x s.dt).advance.tick := h.step_eq

theorem AtInstr.step_ldDtVx (h : AtInstr (.ldDtVx x) s) : step s = .next (s.setDt (s.reg x)).advance.tick := h.step_eq

theorem AtInstr.step_ldStVx (h : AtInstr (.ldStVx x) s) : step s = .next (s.setSt (s.reg x)).advance.tick := h.step_eq

theorem toneActive_iff : toneActive s = true ↔ s.st.toNat ≠ 0 := by
  rw [toneActive, bne_iff_ne, ne_eq, ← BitVec.toNat_inj]
  rfl

/-- Settles O50: each move writes one register or one timer, and the tick then counts the timer it finds. -/
theorem timerMoveRules : Obligations.TimerMoveRules := by
  refine fun x s => ⟨decode_encode (.ldVxDt x), decode_encode (.ldDtVx x), decode_encode (.ldStVx x),
    ⟨_, rfl, s.setReg_advance_wroteReg x s.dt⟩, ?_, ?_, fun hat => ?_, fun hat => ?_, fun hat => ?_⟩
  · exact ⟨(s.setDt (s.reg x)).advance, rfl, rfl, rfl, rfl, fun _ _ => rfl, rfl, ⟨rfl, rfl⟩, ⟨rfl, rfl⟩,
      fun _ _ => rfl, fun _ _ => rfl, rfl⟩
  · exact ⟨(s.setSt (s.reg x)).advance, rfl, rfl, rfl, rfl, fun _ _ => rfl, rfl, ⟨rfl, rfl⟩, ⟨rfl, rfl⟩,
      fun _ _ => rfl, fun _ _ => rfl, rfl⟩
  · exact ⟨_, hat.step_ldVxDt, State.reg_setReg_self s x s.dt, countDown_toNat s.dt⟩
  · exact ⟨_, hat.step_ldDtVx, countDown_toNat (s.reg x)⟩
  · have hst : (s.setSt (s.reg x)).advance.tick.st.toNat = (s.reg x).toNat - 1 := countDown_toNat (s.reg x)
    refine ⟨_, hat.step_ldStVx, hst, ?_⟩
    rw [toneActive_iff, hst]
    omega

/-- Settles O51: the tick of the first cycle has counted the written value before the second cycle reads it. -/
theorem timerPollAfterWrite : Obligations.TimerPollAfterWrite := by
  intro x y s t u hs hst ht htu
  have hdt : t.dt.toNat = (s.reg x).toNat - 1 := by
    cases hst.symm.trans hs.step_ldDtVx
    exact countDown_toNat (s.reg x)
  have hreg : u.reg y = t.dt := by
    cases htu.symm.trans ht.step_ldVxDt
    exact State.reg_setReg_self t y t.dt
  rw [hreg, hdt]

end Sys2Proof.Machine
end

section
/-!
PROOFS. The cycle of a running block (60_exceptions.md R172, R174, R181): a known word executes and ticks, an unknown one
is reported; then the awaiting-input state (R185 to R187).
-/
namespace Sys2Proof.Machine

variable {i : Instr} {op : Word} {s t : State}

/-! ## The cycle by the fetched word -/

theorem cycle_of_fetch (hrun : s.rs = .run) (hfetch : s.fetch = some op) : cycle s = cycleOf op s := by
  unfold cycle; rw [hrun, hfetch]

theorem atInstr_of_decode (hrun : s.rs = .run) (hfetch : s.fetch = some op) (hd : decode op = some i) : AtInstr i s :=
  ⟨hrun, encode_of_decode hd ▸ hfetch⟩

theorem cycle_of_unknown (hrun : s.rs = .run) (hfetch : s.fetch = some op) (hd : decode op = none) :
    cycle s = ⟨.next s.advance.tick, some ⟨op, s.pc⟩⟩ := (cycle_of_fetch hrun hfetch).trans (cycleOf_none hd s)

theorem step_of_unknown (hrun : s.rs = .run) (hfetch : s.fetch = some op) (hd : decode op = none) :
    step s = .next s.advance.tick := by
  rw [← cycle_outcome_of_run hrun, cycle_of_unknown hrun hfetch hd]

/-- Settles O6: `AtInstr.step_eq`, outcome by outcome; `beginsWait` names `Fx0A` alone. -/
theorem stepRunsDecodedInstruction : Obligations.StepRunsDecodedInstruction := by
  intro s op i hrun hfetch hd _
  refine ⟨?_, by rw [cycle_of_fetch hrun hfetch, cycleOf_some hd]⟩
  rw [(atInstr_of_decode hrun hfetch hd).step_eq]
  cases exec i s with
  | next t => simp only [tickAfter, beginsWait_iff]
  | fault f => rfl
  | refused q => rfl

/-- Settles O8: the advance and the tick change PC and the timers only. -/
theorem unknownOpcodeReportsAndAdvances : Obligations.UnknownOpcodeReportsAndAdvances := by
  refine fun s op hrun hfetch hd => ⟨by rw [cycle_of_unknown hrun hfetch hd], _, step_of_unknown hrun hfetch hd, ?_⟩
  exact ⟨rfl, countDown_toNat s.dt, countDown_toNat s.st, fun _ _ => rfl, rfl, ⟨rfl, rfl⟩, ⟨rfl, rfl⟩, fun _ _ => rfl,
    fun _ _ => rfl, rfl⟩

/-- Settles O10: one tick at most in each of the three kinds of cycle, and it is `countDown` of both timers. -/
theorem timersTickOncePerCycle : Obligations.TimersTickOncePerCycle := by
  intro s op
  refine ⟨fun i u t hrun hfetch hd hu ht => ?_, fun t hrun hfetch hd ht => ?_, fun t hawait ht => ?_⟩
  · rw [(atInstr_of_decode hrun hfetch hd).step_eq, hu] at ht
    cases ht
    simp only [beginsWait_iff]
    split
    · exact ⟨rfl, rfl⟩
    · exact ⟨countDown_toNat u.dt, countDown_toNat u.st⟩
  · cases ht.symm.trans (step_of_unknown hrun hfetch hd)
    exact ⟨countDown_toNat s.dt, countDown_toNat s.st⟩
  · rw [cycle_of_await hawait] at ht
    cases ht
    exact ⟨rfl, rfl⟩

/-! ## The awaiting-input state -/

/-- Settles O11: an idle cycle answers the state itself; the step samples one input, alone or with a key press. -/
theorem waitingCycleDoesNothing : Obligations.WaitingCycleDoesNothing := by
  intro s hawait
  rw [cycle_of_await hawait]
  refine ⟨rfl, rfl, _, step_await hawait, ?_⟩
  rcases awaitInput_cases s with hidle | ⟨k, hpress⟩
  · exact .inl hidle
  · refine .inr ⟨k, hpress.trans ?_⟩
    rw [keyPress_of_await hawait]
    rfl

/-- Settles O12: `keyPress_of_await`, field by field; while the block runs the press is discarded. -/
theorem keyPressCompletesWait : Obligations.KeyPressCompletesWait := by
  refine fun s k => ⟨fun hawait => ?_, fun hrun => by unfold keyPress; rw [hrun]⟩
  rw [keyPress_of_await hawait]
  exact ⟨State.reg_setReg_self s s.kx _, fun _ hr => State.reg_setReg_of_ne (Ne.symm hr) s _, rfl, countDown_toNat s.dt,
    countDown_toNat s.st, rfl, rfl, rfl, ⟨rfl, rfl⟩, fun _ _ => rfl, fun _ _ => rfl, rfl⟩

end Sys2Proof.Machine
end

section
/-!
PROOFS. The faults (60_exceptions.md R175): every instruction completes, or raises a fault of its row of the table whose
event names PC and the instruction's word. `RunsOrRaises` says so of an outcome; each shared operation that may fault keeps
it, and `exec_runsOrRaises` assembles the whole table from them.
-/
namespace Sys2Proof.Machine

variable {i : Instr} {s t : State}

/-- Whether the table of R175 lists the fault under the instruction. -/
def MayRaise (i : Instr) : Fault → Prop
  | .stackOverflow .. => ∃ nnn, i = .call nnn
  | .stackUnderflow .. => i = .ret
  | .fetchAddress .. => False
  | .dataAddress .. => (∃ x y n, i = .drw x y n ∧ n ≠ 0) ∨ ∃ x, i = .ldB x ∨ i = .stRegs x ∨ i = .ldRegs x
  | .displayBounds .. => ∃ x y n, i = .drw x y n
  | .pcAlignment .. => ∃ nnn, i = .jp nnn ∨ i = .call nnn ∨ i = .jpV0 nnn
  | .keyIndex .. => ∃ x, i = .skp x ∨ i = .sknp x

/-- A fault that `i` may raise, with the event of `i` at the PC of `s`. -/
structure RaisedBy (i : Instr) (s : State) (f : Fault) : Prop where
  mayRaise : MayRaise i f
  faultPc_eq : faultPc f = s.pc
  faultOp_eq : faultOp f = some (encode i)

/-- An outcome of `i` from `s` that is a next state, or a fault of its own. -/
def RunsOrRaises (i : Instr) (s : State) (r : Result) : Prop :=
  (∃ t, r = .next t) ∨ ∃ f, r = .fault f ∧ RaisedBy i s f

theorem runsOrRaises_next (i : Instr) (s t : State) : RunsOrRaises i s (.next t) := .inl ⟨t, rfl⟩

/-! ## The shared operations that may fault -/

theorem jumpTo_runsOrRaises {target : Word} (hi : MayRaise i (.pcAlignment s.pc (encode i) target)) :
    RunsOrRaises i s (jumpTo target i s t) := by
  unfold jumpTo
  split
  · exact .inr ⟨_, rfl, hi, rfl, rfl⟩
  · exact runsOrRaises_next ..

theorem withData_runsOrRaises {len : Nat} {done : Result}
    (hi : len ≠ 0 → ∀ addr, MayRaise i (.dataAddress s.pc (encode i) addr)) (hdone : RunsOrRaises i s done) :
    RunsOrRaises i s (withData len i s done) := by
  unfold withData
  split
  · next h =>
    obtain ⟨hlen, -⟩ := h
    exact .inr ⟨_, rfl, hi hlen _, rfl, rfl⟩
  · exact hdone

theorem withKey_runsOrRaises {b : Byte} {done : Bool → Result} (hi : MayRaise i (.keyIndex s.pc (encode i) b))
    (hdone : ∀ held, RunsOrRaises i s (done held)) : RunsOrRaises i s (withKey b i s done) := by
  unfold withKey
  split
  · exact .inr ⟨_, rfl, hi, rfl, rfl⟩
  · exact hdone _

theorem drawChecked_runsOrRaises {ps : List Pixel}
    (hi : ∀ col row, MayRaise i (.displayBounds s.pc (encode i) col row)) : RunsOrRaises i s (drawChecked ps i s) := by
  unfold drawChecked
  split
  · exact .inr ⟨_, rfl, hi _ _, rfl, rfl⟩
  · exact runsOrRaises_next ..

/-! ## The execute stage and the step -/

/-- RET and CALL test the stack themselves; the other faults come from the shared operations. -/
theorem exec_runsOrRaises (i : Instr) (s : State) : RunsOrRaises i s (exec i s) := by
  cases i with
  | ret =>
    by_cases hsp : s.sp.val = 0
    · exact .inr ⟨_, exec_ret_of_empty hsp, rfl, rfl, rfl⟩
    · exact .inl ⟨_, exec_ret_of_live hsp⟩
  | jp nnn => exact jumpTo_runsOrRaises ⟨nnn, .inl rfl⟩
  | call nnn =>
    rw [exec, execCall]
    split
    · exact .inr ⟨_, rfl, ⟨nnn, rfl⟩, rfl, rfl⟩
    · exact jumpTo_runsOrRaises ⟨nnn, .inr (.inl rfl)⟩
  | jpV0 nnn => exact jumpTo_runsOrRaises ⟨nnn, .inr (.inr rfl)⟩
  | drw x y n =>
    refine withData_runsOrRaises (fun hlen _ => .inl ⟨x, y, n, rfl, ?_⟩)
      (drawChecked_runsOrRaises fun _ _ => ⟨x, y, n, rfl⟩)
    rintro rfl
    exact hlen rfl
  | skp x =>
    rw [exec, execSkp]
    exact withKey_runsOrRaises ⟨x, .inl rfl⟩ fun _ => runsOrRaises_next ..
  | sknp x =>
    rw [exec, execSknp]
    exact withKey_runsOrRaises ⟨x, .inr rfl⟩ fun _ => runsOrRaises_next ..
  | ldB x => exact withData_runsOrRaises (fun _ _ => .inr ⟨x, .inl rfl⟩) (runsOrRaises_next ..)
  | stRegs x => exact withData_runsOrRaises (fun _ _ => .inr ⟨x, .inr (.inl rfl)⟩) (runsOrRaises_next ..)
  | ldRegs x => exact withData_runsOrRaises (fun _ _ => .inr ⟨x, .inr (.inr rfl)⟩) (runsOrRaises_next ..)
  | _ => exact runsOrRaises_next ..

/-- Settles O55: `exec_runsOrRaises`, the row of the table read by the fault's code. -/
theorem faultsByInstruction : Obligations.FaultsByInstruction := by
  intro i s
  rcases exec_runsOrRaises i s with hnext | ⟨f, hf, hrow, -, -⟩
  · exact .inl hnext
  · exact .inr ⟨f, hf, by cases f <;> exact hrow⟩

theorem raisedBy_of_exec {f : Fault} (h : exec i s = .fault f) : RaisedBy i s f := by
  rcases exec_runsOrRaises i s with ⟨t, ht⟩ | ⟨g, hg, hraised⟩
  · cases h.symm.trans ht
  · cases h.symm.trans hg
    exact hraised

theorem tickAfter_fault {r : Result} {f : Fault} (h : tickAfter i r = .fault f) : r = .fault f := by
  cases r with
  | next t => cases h
  | fault g => exact h
  | refused q => cases h

/-- A step that faults could not fetch, or its instruction raised the fault. -/
theorem step_fault {f : Fault} (h : step s = .fault f) :
    s.rs = .run ∧ ((s.fetch = none ∧ f = .fetchAddress s.pc) ∨ ∃ i, s.fetch = some (encode i) ∧ RaisedBy i s f) := by
  cases hrs : s.rs with
  | awaitKey => cases (step_await hrs).symm.trans h
  | run =>
    refine ⟨rfl, ?_⟩
    cases hfetch : s.fetch with
    | none =>
      rw [step_run hrs, hfetch] at h
      cases h
      exact .inl ⟨rfl, rfl⟩
    | some op =>
      cases hd : decode op with
      | none => cases (step_of_unknown hrs hfetch hd).symm.trans h
      | some i =>
        rw [(atInstr_of_decode hrs hfetch hd).step_eq] at h
        exact .inr ⟨i, congrArg some (encode_of_decode hd), raisedBy_of_exec (tickAfter_fault h)⟩

/-- Only the fetch stage's fault, code 3, has no word. -/
theorem faultCode_eq_three_iff (f : Fault) : faultCode f = 3 ↔ faultOp f = none := by
  cases f <;> simp [faultCode, faultOp]

/-- Settles O56: `step_fault`; in both cases the event's word is what the fetch gave. -/
theorem faultEventNamesPcAndWord : Obligations.FaultEventNamesPcAndWord := by
  intro s f h
  obtain ⟨hrun, ⟨hfetch, rfl⟩ | ⟨i, hfetch, hraised⟩⟩ := step_fault h
  · exact ⟨hrun, rfl, hfetch.symm, fun _ => hfetch, fun _ => rfl⟩
  · have hop : faultOp f = s.fetch := hraised.faultOp_eq.trans hfetch.symm
    exact ⟨hrun, hraised.faultPc_eq, hop, hop ▸ faultCode_eq_three_iff f⟩

end Sys2Proof.Machine
end

section
/-!
PROOFS. The host's keyboard mapping (60_exceptions.md R190).
-/
namespace Sys2Proof.Machine

/-- The 16 external keys are distinct, so each is found at its own place. -/
theorem logicalKey_externalKeys : ∀ k : Nibble, logicalKey (externalKeys[k.toNat]'k.isLt) = some k := by decide

theorem externalKey_of_logicalKey {c : Char} {k : Nibble} (h : logicalKey c = some k) : externalKey k = some c := by
  obtain ⟨n, hfind, rfl⟩ := Option.map_eq_some_iff.1 h
  obtain ⟨hn, hc, -⟩ := List.findIdx?_eq_some_iff_getElem.1 hfind
  have hlen : n < 16 := hn
  rw [externalKey, BitVec.toNat_ofNat, Nat.mod_eq_of_lt hlen, List.getElem?_eq_getElem hn, beq_iff_eq.1 hc]

/-- Settles O59: the two lookups are inverse, and a key outside the table presses nothing. -/
theorem keyboardMapping : Obligations.KeyboardMapping :=
  ⟨fun k => ⟨_, List.getElem?_eq_getElem k.isLt, logicalKey_externalKeys k⟩, fun _ _ => externalKey_of_logicalKey,
    fun c s h => by unfold pressExternal; rw [h]⟩

end Sys2Proof.Machine
end

section
/-!
PROOFS. The load operation (70_reset_and_hazards.md): an image that fits, from any state (R200, R202), and one that does
not (R201).
-/
namespace Sys2Proof.Machine

variable {p : List Byte}

/-- An image that fits is stored over the reset memory; of the state before, only the count of inputs goes on. -/
theorem load_of_fits (hp : p.length ≤ 3584) (s : State) :
    load p s = (.ok, { State.reset.store 0x200 p with inputs := s.inputs }) := if_pos (decide_eq_true hp)

theorem load_of_tooLarge (hp : 3584 < p.length) (s : State) : load p s = (.programTooLarge, s) :=
  if_neg fun hwf => Nat.not_le.2 hp (of_decide_eq_true hwf)

/-- Every byte after a load: the image from 0x200 on, elsewhere the fontset and zeros. -/
theorem load_readByte (hp : p.length ≤ 3584) (s : State) (a : Nat) :
    (load p s).2.readByte a = if 0x200 ≤ a ∧ a < 0x200 + p.length then p.getD (a - 0x200) 0 else font.getD a 0 := by
  rw [load_of_fits hp]
  exact State.readByte_store (s := State.reset) rfl p (by omega) a

theorem load_readByte_image (hp : p.length ≤ 3584) (s : State) {j : Nat} (hj : j < p.length) :
    (load p s).2.readByte (0x200 + j) = p.getD j 0 := by
  rw [load_readByte hp, if_pos (by omega), Nat.add_sub_cancel_left]

theorem load_readByte_font (hp : p.length ≤ 3584) (s : State) {a : Nat} (ha : a < 0x50) :
    (load p s).2.readByte a = font.getD a 0 := by
  rw [load_readByte hp, if_neg (by omega)]

theorem load_readByte_zero (hp : p.length ≤ 3584) (s : State) {a : Nat} (hfont : 0x50 ≤ a)
    (himage : a < 0x200 ∨ 0x200 + p.length ≤ a) : (load p s).2.readByte a = 0 := by
  rw [load_readByte hp, if_neg (by omega)]
  exact List.getD_eq_default _ _ hfont

/-- Settles O13: `load_of_fits` leaves every field but memory as `resetIsPostLoad` has it; memory by `load_readByte`. -/
theorem loadGivesPostLoadState : Obligations.LoadGivesPostLoadState := by
  intro p s hp
  obtain ⟨hreg, hireg, hpc, hsp, hstack, hdt, hst, hpixel, hrs, hkx, -⟩ := resetIsPostLoad
  refine ⟨?ok, ?reg, ?ireg, ?pc, ?sp, ?stack, ?dt, ?st, ?pixel, ?rs, ?kx, fun _ => load_readByte_font hp s,
    fun _ => load_readByte_image hp s, fun _ => load_readByte_zero hp s, ?anyState⟩
  case anyState => intro s'; rw [load_of_fits hp, load_of_fits hp]
  all_goals rw [load_of_fits hp]
  exacts [hreg, hireg, hpc, hsp, hstack, hdt, hst, hpixel, hrs, hkx]

/-! ## The empty image and an image that does not fit -/

/-- After the empty image the first word is two zero bytes, at 0x200 (R182). -/
theorem load_nil_fetch (s : State) : (load [] s).2.fetch = some 0x0000 := by
  have hzero : ∀ a, 0x200 ≤ a → (load [] s).2.readByte a = 0 := fun a ha =>
    load_readByte_zero (Nat.zero_le _) s (by omega) (.inr ha)
  have hpc : (load [] s).2.pc.toNat = 0x200 := rfl
  rw [State.fetch_of_le (by omega), hpc, hzero _ (by omega), hzero _ (by omega)]
  rfl

/-- Settles O14; the report is `cycle_of_unknown` at the word `load_nil_fetch` gives. -/
theorem loadRejectsOversized : Obligations.LoadRejectsOversized := by
  refine fun p s => ⟨fun hp => load_of_tooLarge hp s, fun hp => by rw [load_of_fits hp], ?report, fun hp => ?lastByte⟩
  case report =>
    have hunknown : decode 0x0000 = none := rfl
    rw [cycle_of_unknown rfl (load_nil_fetch s) hunknown]
    rfl
  case lastByte => exact load_readByte_zero (by omega) s (by omega) (.inr (by omega))

end Sys2Proof.Machine
end
